-- ==== Sys2Proof/Word.lean ====
section
/-! DEFINITION. The words of the BMU: what the spec treats as bits. -/

namespace Sys2Proof

/-- A value of `XLEN = 64` bits: an operand register, a datum of the host port (10_state.md R20, R26). -/
abbrev Word := BitVec 64

/-- The addressable unit of `BUF`, 8 bits (20_memory.md R50). -/
abbrev Byte := BitVec 8

/-- A command word, 32 bits, bit 31 the most significant (30_encoding.md R80). -/
abbrev CmdWord := BitVec 32

end Sys2Proof
end

