-- ==== Sys2Proof/Machine/Bits.lean ====
section
/-! DEFINITION. The pure functions of the bit, list, accessor and combination commands on naturals
(40_bitfield_primitives.md R120 to R127, 41_bit_lists.md R161 and R162, 42_fixed_width_accessors.md R180,
43_combine.md R220). `W` is the container width, `v < 2^W` a container, `b` begin, `c` count. -/

namespace Sys2Proof.Machine

/-- `ones(N)` (00_scope.md R9). -/
def ones (n : Nat) : Nat := 2 ^ n - 1

/-- `NOT_N(a)` for `a` of width `N` (00_scope.md R9). -/
def notN (n a : Nat) : Nat := ones n - a

/-- `GetBits_W(v, b, c)` (R120); its second branch is the contested corner, log entry 11. -/
def getBits (W v b c : Nat) : Nat :=
  if b ≥ W then 0
  else if c ≥ W then v
  else (v >>> b) % 2 ^ c

/-- `ClearBits_W(v, b, c)` (R121); its second branch is the contested corner, log entry 11. -/
def clearBits (W v b c : Nat) : Nat :=
  if b ≥ W then v
  else if c ≥ W then 0
  else v &&& notN W (((2 ^ c - 1) <<< b) % 2 ^ W)

/-- `RunMask_W(b, c)`: bits `b .. min(b+c, W)-1` (R122). -/
def runMask (W b c : Nat) : Nat :=
  if b ≥ W then 0 else 2 ^ min (b + c) W - 2 ^ b

/-- `SetBits_W(v, s, b, c)` (R123): the clear step is the clipped run, not `clearBits`. -/
def setBits (W v s b c : Nat) : Nat :=
  if b ≥ W then v
  else
    let src := s % 2 ^ W
    let low := getBits W src 0 c
    (v &&& notN W (runMask W b c)) ||| ((low <<< b) % 2 ^ W)

/-- `FillBits_W(v, b, c)` (R124). -/
def fillBits (W v b c : Nat) : Nat := setBits W v (ones W) b c

/-- `SetBit_W(v, i)` (R126). -/
def setBit (W v i : Nat) : Nat := if i < W then v ||| 2 ^ i else v

/-- `ClearBit_W(v, i)` (R127). -/
def clearBit (W v i : Nat) : Nat := if i < W then v &&& notN W (2 ^ i) else v

/-- `ClearList_W(v, I)` (R161). -/
def clearList (W v : Nat) (I : List Nat) : Nat := I.foldl (clearBit W) v

/-- `FillList_W(v, I)` (R162). -/
def fillList (W v : Nat) (I : List Nat) : Nat := I.foldl (setBit W) v

/-- `GetUnit_{W,U}(v, b)` (R180). -/
def getUnit (W U v b : Nat) : Nat := getBits W v b U

/-- `SetUnit_{W,U}(v, s, b)` (R180, R196). -/
def setUnit (W U v s b : Nat) : Nat := setBits W v s b U

/-- `ClearUnit_{W,U}(v, b)` (R180). -/
def clearUnit (W U v b : Nat) : Nat := clearBits W v b U

/-- `FillUnit_{W,U}(v, b)` (R180). -/
def fillUnit (W U v b : Nat) : Nat := fillBits W v b U

/-- `Combine_P(h, l)` (R220). -/
def combine (P h l : Nat) : Nat := ((h % 2 ^ P) <<< P) + l % 2 ^ P

end Sys2Proof.Machine
end

