-- ==== Sys2Proof/Config.lean ====
section
/-! DEFINITION. What the spec leaves open: the parameters of an instance and the bytes of `BUF` after a reset.
Every constant here has no body, so no proof can rest on a value of it. -/

namespace Sys2Proof

/-- The two byte orders (20_memory.md R54). -/
inductive ByteOrder where
  | little
  | big
deriving DecidableEq, Repr, Inhabited

/-- The open parameter `NATIVE_ORDER` (00_scope.md R5, 92_eei_decisions.md D11): the byte order that
endianness code 0 stands for on this instance. Log entry 5. -/
opaque Config.nativeOrder : ByteOrder

/-- How much `BUF_BYTES` exceeds its least value 8; `16777208 = 2^24 - 8`, since `BUF_BYTES < 2^24`. Log entry 5. -/
opaque Config.bufExtra : Fin 16777208

/-- The open parameter `BUF_BYTES`, `8 <= BUF_BYTES < 2^24` (00_scope.md R5, 92_eei_decisions.md D8). Log entry 5. -/
def Config.bufBytes : Nat := Config.bufExtra.val + 8

/-- FREE VALUE: what `BUF[addr]` holds after the reset of the given number until something writes it
(10_state.md R36, 70_reset_and_hazards.md R301, 93_implementation_defined.md U1). Log entry 4. -/
opaque Config.bufAfterReset : (resets addr : Nat) → Byte

end Sys2Proof
end

