-- ==== Sys2Proof/Syntax.lean ====
section
/-! DEFINITION. The commands of BMU-1 as syntax: one constructor per row of spec/opcode_table.json. -/

namespace Sys2Proof

/-- A width code, fields `w` and `p` (30_encoding.md R85): no code is reserved. -/
inductive Width where
  | w8
  | w16
  | w32
  | w64
deriving DecidableEq, Repr

/-- The width in bits that a width code selects (30_encoding.md R85). -/
def Width.bits : Width → Nat
  | .w8 => 8
  | .w16 => 16
  | .w32 => 32
  | .w64 => 64

/-- The endianness code, field `e` of format X (30_encoding.md R86). -/
inductive Endian where
  | native
  | little
  | big
  | reserved
deriving DecidableEq, Repr

/-- An operand register index `r0` .. `r7` (10_state.md R20). -/
abbrev Reg := Fin 8

/-- The fields of format B below the opcode (30_encoding.md R82). A command that does not use a field ignores it
(R89); the field is kept because `ECMD` records all 32 bits of an offending word (60_exceptions.md R262). -/
structure FormatB where
  w : Width
  rd : Reg
  rs : Reg
  b : Byte
  c : Byte
deriving DecidableEq, Repr

/-- The fields of format C (30_encoding.md R83); `ign13` is bits 13:11, `ign7` bits 7:0, both ignored. -/
structure FormatC where
  w : Width
  rd : Reg
  rs : Reg
  p : Width
  ign13 : BitVec 3
  rt : Reg
  ign7 : BitVec 8
deriving DecidableEq, Repr

/-- The fields of format X (30_encoding.md R84); `ign13` is bits 13:11, `ign7` bits 7:3, both ignored. -/
structure FormatX where
  w : Width
  rd : Reg
  rs : Reg
  e : Endian
  ign13 : BitVec 3
  rt : Reg
  ign7 : BitVec 5
  rl : Reg
deriving DecidableEq, Repr

/-- The 27 commands (30_encoding.md R90), in the order of the opcode table. -/
inductive Instr where
  /-- GETBITS (40_bitfield_primitives.md R130). -/
  | getbits (f : FormatB)
  /-- CLRBITS (R131). -/
  | clrbits (f : FormatB)
  /-- SETBITS (R132). -/
  | setbits (f : FormatB)
  /-- FILLBITS (R133). -/
  | fillbits (f : FormatB)
  /-- ISBITSET (R134). -/
  | isbitset (f : FormatB)
  /-- SETBIT (R135). -/
  | setbit (f : FormatB)
  /-- CLRBIT (R136). -/
  | clrbit (f : FormatB)
  /-- CLRBITSL (41_bit_lists.md R164). -/
  | clrbitsl (f : FormatB)
  /-- FILLBITSL (R165). -/
  | fillbitsl (f : FormatB)
  /-- ISANY (R166). -/
  | isany (f : FormatB)
  /-- AREALL (R167). -/
  | areall (f : FormatB)
  /-- ISNONE (R168). -/
  | isnone (f : FormatB)
  /-- GETBYTE (42_fixed_width_accessors.md R183). -/
  | getbyte (f : FormatB)
  /-- SETBYTE (R184). -/
  | setbyte (f : FormatB)
  /-- CLRBYTE (R185). -/
  | clrbyte (f : FormatB)
  /-- FILLBYTE (R186). -/
  | fillbyte (f : FormatB)
  /-- GETWORD (R187). -/
  | getword (f : FormatB)
  /-- SETWORD (R188). -/
  | setword (f : FormatB)
  /-- CLRWORD (R189). -/
  | clrword (f : FormatB)
  /-- FILLWORD (R190). -/
  | fillword (f : FormatB)
  /-- GETDWORD (R191). -/
  | getdword (f : FormatB)
  /-- SETDWORD (R192). -/
  | setdword (f : FormatB)
  /-- CLRDWORD (R193). -/
  | clrdword (f : FormatB)
  /-- FILLDWORD (R194). -/
  | filldword (f : FormatB)
  /-- COMBINE (43_combine.md R221). -/
  | combine (f : FormatC)
  /-- WRB (44_byte_transfer.md R234). -/
  | wrb (f : FormatX)
  /-- RDB (44_byte_transfer.md R235). -/
  | rdb (f : FormatX)
deriving DecidableEq, Repr

end Sys2Proof
end

