-- ==== Sys2Proof/WellFormed.lean ====
section
/-! DEFINITION. Well-typed commands (30_encoding.md R96): the checks that depend on the command word alone. -/

namespace Sys2Proof

/-- The container of an accessor is strictly wider than its unit of `unit` bits (30_encoding.md R92,
42_fixed_width_accessors.md R181). -/
def FormatB.widerThan (unit : Nat) (f : FormatB) : Bool := unit < f.w.bits

/-- A list command carries at most `LIST_MAX = 8` indices (30_encoding.md R88, R93). -/
def FormatB.listFits (f : FormatB) : Bool := f.c.toNat ≤ 8

/-- The result of COMBINE is at least twice as wide as a part (30_encoding.md R92, 43_combine.md R221). -/
def FormatC.widthsFit (f : FormatC) : Bool := 2 * f.p.bits ≤ f.w.bits

/-- The endianness code of a transfer command is not the reserved code 3 (30_encoding.md R93). -/
def FormatX.orderNamed (f : FormatX) : Bool := f.e ≠ .reserved

/-- A command that names a well-typed operation (30_encoding.md R96 conditions 2 and 3; condition 1, a listed
opcode, holds of every `Instr`). -/
def Instr.wellTyped : Instr → Bool
  | .getbits _ | .clrbits _ | .setbits _ | .fillbits _ | .isbitset _ | .setbit _ | .clrbit _ => true
  | .clrbitsl f | .fillbitsl f | .isany f | .areall f | .isnone f => f.listFits
  | .getbyte f | .setbyte f | .clrbyte f | .fillbyte f => f.widerThan 8
  | .getword f | .setword f | .clrword f | .fillword f => f.widerThan 16
  | .getdword f | .setdword f | .clrdword f | .filldword f => f.widerThan 32
  | .combine f => f.widthsFit
  | .wrb f | .rdb f => f.orderNamed

/-- The same command with 0 in every field its rule ignores, as the assembler writes it (30_encoding.md R89). -/
def Instr.zeroIgnored : Instr → Instr
  | .getbits f => .getbits f
  | .clrbits f => .clrbits { f with rs := 0 }
  | .setbits f => .setbits f
  | .fillbits f => .fillbits { f with rs := 0 }
  | .isbitset f => .isbitset { f with rs := 0, c := 0 }
  | .setbit f => .setbit { f with rs := 0, c := 0 }
  | .clrbit f => .clrbit { f with rs := 0, c := 0 }
  | .clrbitsl f => .clrbitsl { f with b := 0 }
  | .fillbitsl f => .fillbitsl { f with b := 0 }
  | .isany f => .isany { f with b := 0 }
  | .areall f => .areall { f with b := 0 }
  | .isnone f => .isnone { f with b := 0 }
  | .getbyte f => .getbyte { f with c := 0 }
  | .setbyte f => .setbyte { f with c := 0 }
  | .clrbyte f => .clrbyte { f with rs := 0, c := 0 }
  | .fillbyte f => .fillbyte { f with rs := 0, c := 0 }
  | .getword f => .getword { f with c := 0 }
  | .setword f => .setword { f with c := 0 }
  | .clrword f => .clrword { f with rs := 0, c := 0 }
  | .fillword f => .fillword { f with rs := 0, c := 0 }
  | .getdword f => .getdword { f with c := 0 }
  | .setdword f => .setdword { f with c := 0 }
  | .clrdword f => .clrdword { f with rs := 0, c := 0 }
  | .filldword f => .filldword { f with rs := 0, c := 0 }
  | .combine f => .combine { f with ign13 := 0, ign7 := 0 }
  | .wrb f => .wrb { f with rd := 0, ign13 := 0, ign7 := 0 }
  | .rdb f => .rdb { f with rs := 0, ign13 := 0, ign7 := 0 }

end Sys2Proof
end

