-- ==== Sys2Proof/Decode.lean ====
section
/-! DEFINITION. Decoding a command word (30_encoding.md R81 to R86, R90, R91, R95) and, after it, encoding.
The decoder refuses reserved opcodes only (step 1 of R95); the later checks are the meanings' own, because the
offending word is then the command's. -/

namespace Sys2Proof

/-- Why a command word names no command: its opcode is reserved (30_encoding.md R91). -/
inductive DecodeError where
  | reservedOpcode (op : Byte)
deriving DecidableEq, Repr

/-- The width a 2-bit code stands for (30_encoding.md R85). -/
def widthOfCode (c : BitVec 2) : Width :=
  match c.toNat with
  | 0 => .w8
  | 1 => .w16
  | 2 => .w32
  | _ => .w64

/-- The meaning of the 2-bit field `e` (30_encoding.md R86). -/
def endianOfCode (c : BitVec 2) : Endian :=
  match c.toNat with
  | 0 => .native
  | 1 => .little
  | 2 => .big
  | _ => .reserved

/-- Field `op`, bits 31:24 (30_encoding.md R81). -/
def opField (cmd : CmdWord) : Byte := cmd.extractLsb' 24 8

/-- Field `w`, bits 23:22 (30_encoding.md R81). -/
def widthField (cmd : CmdWord) : Width := widthOfCode (cmd.extractLsb' 22 2)

/-- A 3-bit register field with its lowest bit at `lo` (30_encoding.md R81, R83, R84). -/
def regField (lo : Nat) (cmd : CmdWord) : Reg := (cmd.extractLsb' lo 3).toFin

/-- Format B (30_encoding.md R82). -/
def decodeB (cmd : CmdWord) : FormatB where
  w := widthField cmd
  rd := regField 19 cmd
  rs := regField 16 cmd
  b := cmd.extractLsb' 8 8
  c := cmd.extractLsb' 0 8

/-- Format C (30_encoding.md R83). -/
def decodeC (cmd : CmdWord) : FormatC where
  w := widthField cmd
  rd := regField 19 cmd
  rs := regField 16 cmd
  p := widthOfCode (cmd.extractLsb' 14 2)
  ign13 := cmd.extractLsb' 11 3
  rt := regField 8 cmd
  ign7 := cmd.extractLsb' 0 8

/-- Format X (30_encoding.md R84). -/
def decodeX (cmd : CmdWord) : FormatX where
  w := widthField cmd
  rd := regField 19 cmd
  rs := regField 16 cmd
  e := endianOfCode (cmd.extractLsb' 14 2)
  ign13 := cmd.extractLsb' 11 3
  rt := regField 8 cmd
  ign7 := cmd.extractLsb' 3 5
  rl := regField 0 cmd

/-- The command a word names, by its opcode (30_encoding.md R90); every other opcode is reserved (R91). -/
def decode (cmd : CmdWord) : Except DecodeError Instr :=
  match (opField cmd).toNat with
  | 0x10 => .ok (.getbits (decodeB cmd))
  | 0x11 => .ok (.clrbits (decodeB cmd))
  | 0x12 => .ok (.setbits (decodeB cmd))
  | 0x13 => .ok (.fillbits (decodeB cmd))
  | 0x14 => .ok (.isbitset (decodeB cmd))
  | 0x15 => .ok (.setbit (decodeB cmd))
  | 0x16 => .ok (.clrbit (decodeB cmd))
  | 0x18 => .ok (.clrbitsl (decodeB cmd))
  | 0x19 => .ok (.fillbitsl (decodeB cmd))
  | 0x1A => .ok (.isany (decodeB cmd))
  | 0x1B => .ok (.areall (decodeB cmd))
  | 0x1C => .ok (.isnone (decodeB cmd))
  | 0x20 => .ok (.getbyte (decodeB cmd))
  | 0x21 => .ok (.setbyte (decodeB cmd))
  | 0x22 => .ok (.clrbyte (decodeB cmd))
  | 0x23 => .ok (.fillbyte (decodeB cmd))
  | 0x24 => .ok (.getword (decodeB cmd))
  | 0x25 => .ok (.setword (decodeB cmd))
  | 0x26 => .ok (.clrword (decodeB cmd))
  | 0x27 => .ok (.fillword (decodeB cmd))
  | 0x28 => .ok (.getdword (decodeB cmd))
  | 0x29 => .ok (.setdword (decodeB cmd))
  | 0x2A => .ok (.clrdword (decodeB cmd))
  | 0x2B => .ok (.filldword (decodeB cmd))
  | 0x30 => .ok (.combine (decodeC cmd))
  | 0x40 => .ok (.wrb (decodeX cmd))
  | 0x41 => .ok (.rdb (decodeX cmd))
  | _ => .error (.reservedOpcode (opField cmd))

/-- The 2-bit code of a width (30_encoding.md R85). -/
def Width.code : Width → BitVec 2
  | .w8 => 0
  | .w16 => 1
  | .w32 => 2
  | .w64 => 3

/-- The 2-bit code of an endianness (30_encoding.md R86). -/
def Endian.code : Endian → BitVec 2
  | .native => 0
  | .little => 1
  | .big => 2
  | .reserved => 3

/-- A register index as a 3-bit field. -/
def Reg.code (r : Reg) : BitVec 3 := BitVec.ofFin r

/-- The opcode of a command (30_encoding.md R90). -/
def Instr.opcode : Instr → Byte
  | .getbits _ => 0x10
  | .clrbits _ => 0x11
  | .setbits _ => 0x12
  | .fillbits _ => 0x13
  | .isbitset _ => 0x14
  | .setbit _ => 0x15
  | .clrbit _ => 0x16
  | .clrbitsl _ => 0x18
  | .fillbitsl _ => 0x19
  | .isany _ => 0x1A
  | .areall _ => 0x1B
  | .isnone _ => 0x1C
  | .getbyte _ => 0x20
  | .setbyte _ => 0x21
  | .clrbyte _ => 0x22
  | .fillbyte _ => 0x23
  | .getword _ => 0x24
  | .setword _ => 0x25
  | .clrword _ => 0x26
  | .fillword _ => 0x27
  | .getdword _ => 0x28
  | .setdword _ => 0x29
  | .clrdword _ => 0x2A
  | .filldword _ => 0x2B
  | .combine _ => 0x30
  | .wrb _ => 0x40
  | .rdb _ => 0x41

/-- A format B word, most significant field first (30_encoding.md R82). -/
def encodeB (op : Byte) (f : FormatB) : CmdWord :=
  op ++ f.w.code ++ Reg.code f.rd ++ Reg.code f.rs ++ f.b ++ f.c

/-- A format C word (30_encoding.md R83). -/
def encodeC (op : Byte) (f : FormatC) : CmdWord :=
  op ++ f.w.code ++ Reg.code f.rd ++ Reg.code f.rs ++ f.p.code ++ f.ign13 ++ Reg.code f.rt ++ f.ign7

/-- A format X word (30_encoding.md R84). -/
def encodeX (op : Byte) (f : FormatX) : CmdWord :=
  op ++ f.w.code ++ Reg.code f.rd ++ Reg.code f.rs ++ f.e.code ++ f.ign13 ++ Reg.code f.rt ++ f.ign7 ++ Reg.code f.rl

/-- The command word of a command, ignored fields included, so that no bit of the word is lost. -/
def encode (i : Instr) : CmdWord :=
  match i with
  | .getbits f | .clrbits f | .setbits f | .fillbits f | .isbitset f | .setbit f | .clrbit f
  | .clrbitsl f | .fillbitsl f | .isany f | .areall f | .isnone f
  | .getbyte f | .setbyte f | .clrbyte f | .fillbyte f
  | .getword f | .setword f | .clrword f | .fillword f
  | .getdword f | .setdword f | .clrdword f | .filldword f => encodeB i.opcode f
  | .combine f => encodeC i.opcode f
  | .wrb f | .rdb f => encodeX i.opcode f

/-- What the assembler makes of a command (30_encoding.md R97): it refuses one that is not well-typed and writes 0
in every ignored field. -/
def assemble (i : Instr) : Option CmdWord :=
  if i.wellTyped then some (encode i.zeroIgnored) else none

/-- The instruction read from the low `nbits` bits of `w`, the bits above being 0 (log entry 14). -/
def decodeTableWord (nbits w : Nat) : Option Instr :=
  (decode (BitVec.ofNat 32 (w % 2 ^ nbits))).toOption

end Sys2Proof
end

