-- ==== Sys2Proof/Machine/State.lean ====
section
/-! DEFINITION. The state of the machine (10_state.md), the host's transactions (R34), the reasons a step can stop,
and the state after reset (R36). -/

namespace Sys2Proof.Machine

/-- The bytes of `BUF` written since the last reset, as (address, byte) pairs with addresses strictly rising.
An address not listed holds what the reset left there, which is no value the model knows: log entry 4. -/
abbrev Memory := List Host.Cell

/-- The canonical form: addresses strictly rising, so that equal contents are equal lists. -/
abbrev Memory.wf (m : Memory) : Prop := m.Pairwise (fun x y => x.1 < y.1)

/-- The host's transactions (10_state.md R34). -/
inductive HostTxn where
  /-- `HostRegRead(i)`. -/
  | regRead (i : Fin 16)
  /-- `HostRegWrite(i, d)`; at index 8 it issues the command word `d[31:0]` (R27). -/
  | regWrite (i : Fin 16) (d : Word)
  /-- `HostBufRead(a)`. -/
  | bufRead (a : Nat)
  /-- `HostBufWrite(a, v)`. -/
  | bufWrite (a : Nat) (v : Byte)
  /-- `HostReset`. -/
  | reset
deriving DecidableEq, Repr

/-- What a read transaction returned to the host (10_state.md R34). -/
inductive HostAnswer where
  | regValue (v : Word)
  | bufByte (v : Byte)
deriving DecidableEq, Repr

/-- The causes of error capture (60_exceptions.md R261). -/
inductive ErrorCode where
  | illegalOpcode
  | badWidth
  | badField
  | bufRange
deriving DecidableEq, Repr

/-- The BMU has no fault: "no condition stops the unit" (93_implementation_defined.md, Part 1), so no constructor.
Error capture is a next state (60_exceptions.md R262). Log entry 8. -/
inductive Fault where
deriving DecidableEq, Repr

/-- Why a step has no meaning. -/
inductive Refusal where
  /-- Raised by an arm of `exec` for a command without a meaning; no arm does. Safe. -/
  | notModelled (mnemonic : String)
  /-- Raised by `HostBufRead` and `HostBufWrite` at an address `>= BUF_BYTES`, which the port cannot express
  (10_state.md R34, 93_implementation_defined.md U14). Safe: log entry 9. -/
  | hostBufAddressOutside (a : Nat)
deriving DecidableEq, Repr

/-- The architectural state (10_state.md), with the model's own fields at the end. -/
structure State where
  /-- `r0` .. `r7` (R20). -/
  regs : Vector Word 8
  /-- The truth flag `T`, `STATUS[0]` (R25). -/
  tFlag : Bool
  /-- `ERR`, `STATUS[1]` (R28). -/
  err : Bool
  /-- `ECODE`, `STATUS[7:4]` (R28). -/
  ecode : BitVec 4
  /-- `ECMD`, the word that set `ERR` (R29). -/
  ecmd : CmdWord
  /-- The bytes of `BUF` written since the last reset (R33). -/
  buf : Memory
  /-- `NATIVE_ORDER`, shown by `CONFIG[0]` (R31); no step changes it. Log entry 5. -/
  nativeOrder : ByteOrder
  /-- `BUF_BYTES`, shown by `CONFIG[31:8]` (R31); no step changes it. Log entry 5. -/
  bufBytes : Nat
  /-- The model's own: how many resets there have been, the index of the free bytes of `BUF`. Log entry 4. -/
  resets : Nat
  /-- The model's own: the host's transactions not yet served, oldest first (R34; 20_memory.md R60). Log entry 1. -/
  pending : List HostTxn
  /-- The model's own: what the host's reads returned, oldest first (70_reset_and_hazards.md R305). Log entry 2. -/
  answers : List HostAnswer
deriving DecidableEq, Repr

/-- The machine after reset (10_state.md R36, 70_reset_and_hazards.md R300): registers, `T`, `ERR`, `ECODE` and
`ECMD` are 0, no byte of `BUF` is known, the parameters are those of the instance, and the host has issued nothing. -/
def State.reset : State where
  regs := Vector.replicate 8 0
  tFlag := false
  err := false
  ecode := 0
  ecmd := 0
  buf := []
  nativeOrder := Config.nativeOrder
  bufBytes := Config.bufBytes
  resets := 0
  pending := []
  answers := []

end Sys2Proof.Machine
end

