-- ==== Sys2Proof/Machine/Ops.lean ====
section
/-! DEFINITION. The named operations over registers, `T`, the error registers and `BUF`. -/

namespace Sys2Proof.Machine

/-- `x[r]` (10_state.md R20). -/
def State.reg (s : State) (r : Reg) : Word := s.regs[r]

/-- `x[r] <- v`: all 64 bits (10_state.md R20). -/
def State.writeReg (s : State) (r : Reg) (v : Word) : State :=
  { s with regs := s.regs.set r.val v r.isLt }

/-- `x[r] <- zext_64(result)` (10_state.md R23). -/
def State.writeResult (s : State) (r : Reg) (result : Nat) : State :=
  s.writeReg r (BitVec.ofNat 64 result)

/-- `T <- b` (10_state.md R25). -/
def State.writeTruth (s : State) (b : Bool) : State := { s with tFlag := b }

/-- The number of an error cause in `ECODE` (60_exceptions.md R261). -/
def ErrorCode.number : ErrorCode → BitVec 4
  | .illegalOpcode => 1
  | .badWidth => 2
  | .badField => 3
  | .bufRange => 4

/-- Error capture (60_exceptions.md R262): the first error since `ERR` was last 0 is recorded, a later one is
dropped; nothing else changes. -/
def State.captureError (s : State) (code : ErrorCode) (cmd : CmdWord) : State :=
  if s.err then s else { s with err := true, ecode := code.number, ecmd := cmd }

/-- The return from error capture (60_exceptions.md R264): `ERR`, `ECODE` and `ECMD` fall together. -/
def State.clearError (s : State) : State := { s with err := false, ecode := 0, ecmd := 0 }

/-- `raise Illegal(code)` by the command `i` (60_exceptions.md R262): the command ends, and its own word, all 32
bits of it, is what `ECMD` may record. -/
def raiseIllegal (code : ErrorCode) (i : Instr) (s : State) : Host.Outcome State Fault Refusal :=
  .next (s.captureError code (encode i))

/-- The byte written at an address since the last reset, if any. -/
def Memory.find : Memory → Nat → Option Byte
  | [], _ => none
  | (a', v') :: m, a => if a = a' then some v' else Memory.find m a

/-- Store one byte, keeping the addresses strictly rising. -/
def Memory.write : Memory → Nat → Byte → Memory
  | [], a, v => [(a, v)]
  | (a', v') :: m, a, v =>
    if a < a' then (a, v) :: (a', v') :: m
    else if a = a' then (a, v) :: m
    else (a', v') :: Memory.write m a v

/-- Store a sequence of bytes at rising addresses from `addr`. -/
def Memory.writeBytes : Memory → Nat → List Byte → Memory
  | m, _, [] => m
  | m, addr, v :: vs => Memory.writeBytes (Memory.write m addr v) (addr + 1) vs

/-- `BUF[a]` (10_state.md R33): the byte written there since the last reset, or the free byte the reset left
(R36, log entry 4). -/
def State.bufByte (s : State) (a : Nat) : Byte :=
  (Memory.find s.buf a).getD (Config.bufAfterReset s.resets a)

/-- `MemRead(addr, n)` (20_memory.md R52). -/
def State.memRead (s : State) (addr n : Nat) : List Byte :=
  (List.range n).map fun k => s.bufByte (addr + k)

/-- `MemWrite(addr, n, bytes)` with `n` the length of `bytes` (20_memory.md R53). -/
def State.memWrite (s : State) (addr : Nat) (bytes : List Byte) : State :=
  { s with buf := Memory.writeBytes s.buf addr bytes }

end Sys2Proof.Machine
end

