-- ==== Sys2Proof/Machine/Operands.lean ====
section
/-! DEFINITION. The operand forms: typed reads (10_state.md R22), index lists (41_bit_lists.md R160), byte orders
and windows (20_memory.md R54, R55, R66), and the values WRB and RDB move (44_byte_transfer.md R231, R232). -/

namespace Sys2Proof.Machine

/-- `x[r]_W`: the register read as a container of `width` bits (10_state.md R22). -/
def State.container (s : State) (r : Reg) (width : Nat) : Nat := (s.reg r).toNat % 2 ^ width

/-- `x[r]` as a natural, all 64 bits (10_state.md R22). -/
def State.fullReg (s : State) (r : Reg) : Nat := (s.reg r).toNat

/-- The `n` low bytes of `x`, the lowest first (30_encoding.md R88, 41_bit_lists.md R160). -/
def indexList (x n : Nat) : List Nat := (List.range n).map fun k => (x >>> (8 * k)) % 256

/-- The index list of a list command: the `c` low bytes of `x[rs]` (41_bit_lists.md R160). -/
def State.indices (s : State) (f : FormatB) : List Nat := indexList (s.fullReg f.rs) f.c.toNat

/-- `Ser(E, t, m)` (20_memory.md R54). -/
def ser (E : ByteOrder) (t m : Nat) : List Byte :=
  (List.range m).map fun k =>
    match E with
    | .little => BitVec.ofNat 8 (t >>> (8 * k))
    | .big => BitVec.ofNat 8 (t >>> (8 * (m - 1 - k)))

/-- The number a byte sequence spells, least significant byte first (20_memory.md R54). -/
def deserLittle : List Byte → Nat
  | [] => 0
  | v :: vs => v.toNat + 256 * deserLittle vs

/-- `Deser(E, bytes)` (20_memory.md R54). -/
def deser (E : ByteOrder) (bytes : List Byte) : Nat :=
  match E with
  | .little => deserLittle bytes
  | .big => deserLittle bytes.reverse

/-- `Order(e)`, none for the reserved code (20_memory.md R55). -/
def State.order (s : State) (e : Endian) : Option ByteOrder :=
  match e with
  | .native => some s.nativeOrder
  | .little => some .little
  | .big => some .big
  | .reserved => none

/-- The window base of a transfer command (20_memory.md R66). -/
def State.windowBase (s : State) (f : FormatX) : Nat := s.fullReg f.rt

/-- The window length of a transfer command in bytes (20_memory.md R66). -/
def State.windowLen (s : State) (f : FormatX) : Nat := s.fullReg f.rl

/-- The window check, on naturals and so without wrap-around (20_memory.md R66). -/
def State.windowFits (s : State) (f : FormatX) : Bool := s.windowBase f + s.windowLen f ≤ s.bufBytes

/-- `n = W/8`, the size in bytes of a transferred value (30_encoding.md R84). -/
def valueBytes (f : FormatX) : Nat := f.w.bits / 8

/-- `m = min(n, len)`, how many bytes move (20_memory.md R68). -/
def State.movedBytes (s : State) (f : FormatX) : Nat := min (valueBytes f) (s.windowLen f)

/-- The bytes of `WriteBytes_n(val, len, E)` with `m = min(n, len)` (44_byte_transfer.md R231); which bytes a short
window keeps is log entry 12. -/
def bytesToWrite (val m : Nat) (E : ByteOrder) : List Byte := ser E (val % 2 ^ (8 * m)) m

/-- The value of `ReadBytes_n(bytes, len, E)` (44_byte_transfer.md R232). -/
def valueRead (bytes : List Byte) (E : ByteOrder) : Nat := deser E bytes

end Sys2Proof.Machine
end

