-- ==== Sys2Proof/Machine/Accessor.lean ====
section
/-! DEFINITION. The fixed-width accessors (42_fixed_width_accessors.md R183 to R194). A container not strictly wider
than the unit raises `BAD_WIDTH` (30_encoding.md R92); `begin` is a bit offset used as it stands (R182). -/

namespace Sys2Proof.Machine

/-- GETBYTE (R183). -/
def execGetbyte (f : FormatB) (s : State) : Host.Outcome State Fault Refusal :=
  if f.w.bits ≤ 8 then raiseIllegal .badWidth (.getbyte f) s
  else .next (s.writeResult f.rd (getUnit f.w.bits 8 (s.container f.rs f.w.bits) f.b.toNat))

/-- SETBYTE (R184). -/
def execSetbyte (f : FormatB) (s : State) : Host.Outcome State Fault Refusal :=
  if f.w.bits ≤ 8 then raiseIllegal .badWidth (.setbyte f) s
  else .next (s.writeResult f.rd (setUnit f.w.bits 8 (s.container f.rd f.w.bits) (s.fullReg f.rs) f.b.toNat))

/-- CLRBYTE (R185). -/
def execClrbyte (f : FormatB) (s : State) : Host.Outcome State Fault Refusal :=
  if f.w.bits ≤ 8 then raiseIllegal .badWidth (.clrbyte f) s
  else .next (s.writeResult f.rd (clearUnit f.w.bits 8 (s.container f.rd f.w.bits) f.b.toNat))

/-- FILLBYTE (R186). -/
def execFillbyte (f : FormatB) (s : State) : Host.Outcome State Fault Refusal :=
  if f.w.bits ≤ 8 then raiseIllegal .badWidth (.fillbyte f) s
  else .next (s.writeResult f.rd (fillUnit f.w.bits 8 (s.container f.rd f.w.bits) f.b.toNat))

/-- GETWORD (R187). -/
def execGetword (f : FormatB) (s : State) : Host.Outcome State Fault Refusal :=
  if f.w.bits ≤ 16 then raiseIllegal .badWidth (.getword f) s
  else .next (s.writeResult f.rd (getUnit f.w.bits 16 (s.container f.rs f.w.bits) f.b.toNat))

/-- SETWORD (R188). -/
def execSetword (f : FormatB) (s : State) : Host.Outcome State Fault Refusal :=
  if f.w.bits ≤ 16 then raiseIllegal .badWidth (.setword f) s
  else .next (s.writeResult f.rd (setUnit f.w.bits 16 (s.container f.rd f.w.bits) (s.fullReg f.rs) f.b.toNat))

/-- CLRWORD (R189). -/
def execClrword (f : FormatB) (s : State) : Host.Outcome State Fault Refusal :=
  if f.w.bits ≤ 16 then raiseIllegal .badWidth (.clrword f) s
  else .next (s.writeResult f.rd (clearUnit f.w.bits 16 (s.container f.rd f.w.bits) f.b.toNat))

/-- FILLWORD (R190). -/
def execFillword (f : FormatB) (s : State) : Host.Outcome State Fault Refusal :=
  if f.w.bits ≤ 16 then raiseIllegal .badWidth (.fillword f) s
  else .next (s.writeResult f.rd (fillUnit f.w.bits 16 (s.container f.rd f.w.bits) f.b.toNat))

/-- GETDWORD (R191). -/
def execGetdword (f : FormatB) (s : State) : Host.Outcome State Fault Refusal :=
  if f.w.bits ≤ 32 then raiseIllegal .badWidth (.getdword f) s
  else .next (s.writeResult f.rd (getUnit f.w.bits 32 (s.container f.rs f.w.bits) f.b.toNat))

/-- SETDWORD (R192). -/
def execSetdword (f : FormatB) (s : State) : Host.Outcome State Fault Refusal :=
  if f.w.bits ≤ 32 then raiseIllegal .badWidth (.setdword f) s
  else .next (s.writeResult f.rd (setUnit f.w.bits 32 (s.container f.rd f.w.bits) (s.fullReg f.rs) f.b.toNat))

/-- CLRDWORD (R193). -/
def execClrdword (f : FormatB) (s : State) : Host.Outcome State Fault Refusal :=
  if f.w.bits ≤ 32 then raiseIllegal .badWidth (.clrdword f) s
  else .next (s.writeResult f.rd (clearUnit f.w.bits 32 (s.container f.rd f.w.bits) f.b.toNat))

/-- FILLDWORD (R194). -/
def execFilldword (f : FormatB) (s : State) : Host.Outcome State Fault Refusal :=
  if f.w.bits ≤ 32 then raiseIllegal .badWidth (.filldword f) s
  else .next (s.writeResult f.rd (fillUnit f.w.bits 32 (s.container f.rd f.w.bits) f.b.toNat))

end Sys2Proof.Machine
end

