-- ==== Sys2Proof/Machine/Flags.lean ====
section
/-! DEFINITION. Every Boolean result that goes to the truth flag `T` (10_state.md R25). -/

namespace Sys2Proof.Machine

/-- `IsBitSet_W(v, i)` (40_bitfield_primitives.md R125). -/
def isBitSet (W v i : Nat) : Bool := i < W && (v >>> i) % 2 = 1

/-- `IsAny_W(v, I)` (41_bit_lists.md R163). -/
def isAny (W v : Nat) (I : List Nat) : Bool := I.any (isBitSet W v)

/-- `AreAll_W(v, I)` (R163). -/
def areAll (W v : Nat) (I : List Nat) : Bool := I.all (isBitSet W v)

/-- `IsNone_W(v, I)` (R163). -/
def isNone (W v : Nat) (I : List Nat) : Bool := !isAny W v I

/-- The completeness of a transfer of an `n`-byte value through a window of `len` bytes
(44_byte_transfer.md R233). -/
def transferComplete (n len : Nat) : Bool := len ≥ n

end Sys2Proof.Machine
end

