-- ==== Sys2Proof/Machine/BitField.lean ====
section
/-! DEFINITION. The bit-field primitives (40_bitfield_primitives.md R130 to R136). None of them raises. -/

namespace Sys2Proof.Machine

/-- GETBITS (R130). -/
def execGetbits (f : FormatB) (s : State) : Host.Outcome State Fault Refusal :=
  .next (s.writeResult f.rd (getBits f.w.bits (s.container f.rs f.w.bits) f.b.toNat f.c.toNat))

/-- CLRBITS (R131). -/
def execClrbits (f : FormatB) (s : State) : Host.Outcome State Fault Refusal :=
  .next (s.writeResult f.rd (clearBits f.w.bits (s.container f.rd f.w.bits) f.b.toNat f.c.toNat))

/-- SETBITS (R132): the source is read at all 64 bits. -/
def execSetbits (f : FormatB) (s : State) : Host.Outcome State Fault Refusal :=
  .next (s.writeResult f.rd
    (setBits f.w.bits (s.container f.rd f.w.bits) (s.fullReg f.rs) f.b.toNat f.c.toNat))

/-- FILLBITS (R133). -/
def execFillbits (f : FormatB) (s : State) : Host.Outcome State Fault Refusal :=
  .next (s.writeResult f.rd (fillBits f.w.bits (s.container f.rd f.w.bits) f.b.toNat f.c.toNat))

/-- ISBITSET (R134): `rd` is read, not written. -/
def execIsbitset (f : FormatB) (s : State) : Host.Outcome State Fault Refusal :=
  .next (s.writeTruth (isBitSet f.w.bits (s.container f.rd f.w.bits) f.b.toNat))

/-- SETBIT (R135). -/
def execSetbit (f : FormatB) (s : State) : Host.Outcome State Fault Refusal :=
  .next (s.writeResult f.rd (setBit f.w.bits (s.container f.rd f.w.bits) f.b.toNat))

/-- CLRBIT (R136). -/
def execClrbit (f : FormatB) (s : State) : Host.Outcome State Fault Refusal :=
  .next (s.writeResult f.rd (clearBit f.w.bits (s.container f.rd f.w.bits) f.b.toNat))

end Sys2Proof.Machine
end

