-- ==== Sys2Proof/Machine/BitList.lean ====
section
/-! DEFINITION. The bit-index list commands (41_bit_lists.md R164 to R168). A list of more than 8 indices raises
`BAD_FIELD` (30_encoding.md R93). -/

namespace Sys2Proof.Machine

/-- The most indices one list command carries (00_scope.md R5). -/
def listMax : Nat := 8

/-- CLRBITSL (R164). -/
def execClrbitsl (f : FormatB) (s : State) : Host.Outcome State Fault Refusal :=
  if f.c.toNat > listMax then raiseIllegal .badField (.clrbitsl f) s
  else .next (s.writeResult f.rd (clearList f.w.bits (s.container f.rd f.w.bits) (s.indices f)))

/-- FILLBITSL (R165). -/
def execFillbitsl (f : FormatB) (s : State) : Host.Outcome State Fault Refusal :=
  if f.c.toNat > listMax then raiseIllegal .badField (.fillbitsl f) s
  else .next (s.writeResult f.rd (fillList f.w.bits (s.container f.rd f.w.bits) (s.indices f)))

/-- ISANY (R166). -/
def execIsany (f : FormatB) (s : State) : Host.Outcome State Fault Refusal :=
  if f.c.toNat > listMax then raiseIllegal .badField (.isany f) s
  else .next (s.writeTruth (isAny f.w.bits (s.container f.rd f.w.bits) (s.indices f)))

/-- AREALL (R167). -/
def execAreall (f : FormatB) (s : State) : Host.Outcome State Fault Refusal :=
  if f.c.toNat > listMax then raiseIllegal .badField (.areall f) s
  else .next (s.writeTruth (areAll f.w.bits (s.container f.rd f.w.bits) (s.indices f)))

/-- ISNONE (R168). -/
def execIsnone (f : FormatB) (s : State) : Host.Outcome State Fault Refusal :=
  if f.c.toNat > listMax then raiseIllegal .badField (.isnone f) s
  else .next (s.writeTruth (isNone f.w.bits (s.container f.rd f.w.bits) (s.indices f)))

end Sys2Proof.Machine
end

