-- ==== Sys2Proof/Machine/Combine.lean ====
section
/-! DEFINITION. The combination helper (43_combine.md R221). -/

namespace Sys2Proof.Machine

/-- COMBINE (R221): `rs` holds the high part, `rt` the low part; a result narrower than two parts raises. -/
def execCombine (f : FormatC) (s : State) : Host.Outcome State Fault Refusal :=
  if f.w.bits < 2 * f.p.bits then raiseIllegal .badWidth (.combine f) s
  else .next (s.writeResult f.rd (combine f.p.bits (s.fullReg f.rs) (s.fullReg f.rt)))

end Sys2Proof.Machine
end

