-- ==== Sys2Proof/Machine/Transfer.lean ====
section
/-! DEFINITION. Byte-buffer transfer (44_byte_transfer.md R234, R235). The reserved endianness code raises
`BAD_FIELD` before the window check raises `BUF_RANGE` (30_encoding.md R95). -/

namespace Sys2Proof.Machine

/-- WRB (R234). -/
def execWrb (f : FormatX) (s : State) : Host.Outcome State Fault Refusal :=
  match s.order f.e with
  | none => raiseIllegal .badField (.wrb f) s
  | some E =>
    if !s.windowFits f then raiseIllegal .bufRange (.wrb f) s
    else
      let bytes := bytesToWrite (s.container f.rs f.w.bits) (s.movedBytes f) E
      .next ((s.memWrite (s.windowBase f) bytes).writeTruth (transferComplete (valueBytes f) (s.windowLen f)))

/-- RDB (R235). -/
def execRdb (f : FormatX) (s : State) : Host.Outcome State Fault Refusal :=
  match s.order f.e with
  | none => raiseIllegal .badField (.rdb f) s
  | some E =>
    if !s.windowFits f then raiseIllegal .bufRange (.rdb f) s
    else
      let bytes := s.memRead (s.windowBase f) (s.movedBytes f)
      .next ((s.writeResult f.rd (valueRead bytes E)).writeTruth
        (transferComplete (valueBytes f) (s.windowLen f)))

end Sys2Proof.Machine
end

