-- ==== Sys2Proof/Machine/Dispatch.lean ====
section
/-! DEFINITION. The meaning of every command: one arm per constructor of `Instr`. -/

namespace Sys2Proof.Machine

def exec (i : Instr) (s : State) : Host.Outcome State Fault Refusal :=
  match i with
  | .getbits f => Sys2Proof.Machine.execGetbits f s
  | .clrbits f => Sys2Proof.Machine.execClrbits f s
  | .setbits f => Sys2Proof.Machine.execSetbits f s
  | .fillbits f => Sys2Proof.Machine.execFillbits f s
  | .isbitset f => Sys2Proof.Machine.execIsbitset f s
  | .setbit f => Sys2Proof.Machine.execSetbit f s
  | .clrbit f => Sys2Proof.Machine.execClrbit f s
  | .clrbitsl f => Sys2Proof.Machine.execClrbitsl f s
  | .fillbitsl f => Sys2Proof.Machine.execFillbitsl f s
  | .isany f => Sys2Proof.Machine.execIsany f s
  | .areall f => Sys2Proof.Machine.execAreall f s
  | .isnone f => Sys2Proof.Machine.execIsnone f s
  | .getbyte f => Sys2Proof.Machine.execGetbyte f s
  | .setbyte f => Sys2Proof.Machine.execSetbyte f s
  | .clrbyte f => Sys2Proof.Machine.execClrbyte f s
  | .fillbyte f => Sys2Proof.Machine.execFillbyte f s
  | .getword f => Sys2Proof.Machine.execGetword f s
  | .setword f => Sys2Proof.Machine.execSetword f s
  | .clrword f => Sys2Proof.Machine.execClrword f s
  | .fillword f => Sys2Proof.Machine.execFillword f s
  | .getdword f => Sys2Proof.Machine.execGetdword f s
  | .setdword f => Sys2Proof.Machine.execSetdword f s
  | .clrdword f => Sys2Proof.Machine.execClrdword f s
  | .filldword f => Sys2Proof.Machine.execFilldword f s
  | .combine f => Sys2Proof.Machine.execCombine f s
  | .wrb f => Sys2Proof.Machine.execWrb f s
  | .rdb f => Sys2Proof.Machine.execRdb f s

end Sys2Proof.Machine
end

