-- ==== Sys2Proof/Machine/HostPort.lean ====
section
/-! DEFINITION. The host port (10_state.md R26 to R31, R34): each transaction is one indivisible step, and a write to
`CMD` runs one command completely (R27). -/

namespace Sys2Proof.Machine

/-- `STATUS` as the host reads it (R28): `ECODE` in bits 7:4, `ERR` in bit 1, `T` in bit 0, all else 0. -/
def State.statusWord (s : State) : Word :=
  0#56 ++ s.ecode ++ 0#2 ++ BitVec.ofBool s.err ++ BitVec.ofBool s.tFlag

/-- `CONFIG` as the host reads it (R31): `BUF_BYTES` in bits 31:8, `NATIVE_BIG` in bit 0, all else 0. -/
def State.configWord (s : State) : Word :=
  0#32 ++ BitVec.ofNat 24 s.bufBytes ++ 0#7 ++ BitVec.ofBool (s.nativeOrder = .big)

/-- The value of a register index (R26): `CMD` and the reserved indices read as 0. -/
def State.indexValue (s : State) (i : Fin 16) : Word :=
  if h : i.val < 8 then s.reg ⟨i.val, h⟩
  else
    match i.val with
    | 9 => s.statusWord
    | 10 => s.ecmd.setWidth 64
    | 11 => s.configWord
    | _ => 0

/-- A read's answer reaches the host. -/
def State.answer (s : State) (v : HostAnswer) : State := { s with answers := s.answers ++ [v] }

/-- `HostReset` (R36): everything the reset defines is as in `State.reset`; the parameters stay, the bytes of `BUF`
are free again, and the host's own side (what it has still to issue and what it has read) is not the unit's to
reset (log entry 3). -/
def State.hostReset (s : State) : State :=
  { State.reset with
    nativeOrder := s.nativeOrder
    bufBytes := s.bufBytes
    resets := s.resets + 1
    pending := s.pending
    answers := s.answers }

/-- Issue one command word (R27, 30_encoding.md R95): a reserved opcode raises `ILLEGAL_OPCODE`, any other word
runs its command. -/
def issueCommand (cmd : CmdWord) (s : State) : Host.Outcome State Fault Refusal :=
  match decode cmd with
  | .ok i => exec i s
  | .error _ => .next (s.captureError .illegalOpcode cmd)

/-- `HostRegWrite(i, d)` (R34): at `CMD` it issues `d[31:0]`, at `STATUS` bit 1 of the data clears the error. -/
def hostRegWrite (i : Fin 16) (d : Word) (s : State) : Host.Outcome State Fault Refusal :=
  if h : i.val < 8 then .next (s.writeReg ⟨i.val, h⟩ d)
  else
    match i.val with
    | 8 => issueCommand (d.extractLsb' 0 32) s
    | 9 => if d.getLsbD 1 then .next s.clearError else .next s
    | _ => .next s

/-- `HostBufRead(a)` (R34). -/
def hostBufRead (a : Nat) (s : State) : Host.Outcome State Fault Refusal :=
  if a < s.bufBytes then .next (s.answer (.bufByte (s.bufByte a)))
  else .refused (.hostBufAddressOutside a)

/-- `HostBufWrite(a, v)` (R34). -/
def hostBufWrite (a : Nat) (v : Byte) (s : State) : Host.Outcome State Fault Refusal :=
  if a < s.bufBytes then .next (s.memWrite a [v])
  else .refused (.hostBufAddressOutside a)

/-- Serve one transaction (R34). -/
def serve (t : HostTxn) (s : State) : Host.Outcome State Fault Refusal :=
  match t with
  | .regRead i => .next (s.answer (.regValue (s.indexValue i)))
  | .regWrite i d => hostRegWrite i d s
  | .bufRead a => hostBufRead a s
  | .bufWrite a v => hostBufWrite a v s
  | .reset => .next s.hostReset

/-- The oldest pending transaction leaves the host's list and is served; with none the unit is idle and does nothing
(00_scope.md R6, log entry 1). -/
def serveOldest (s : State) : Host.Outcome State Fault Refusal :=
  match s.pending with
  | [] => .next s
  | t :: rest => serve t { s with pending := rest }

/-- The host's next transaction becomes a write of `cmd` to `CMD`, ahead of what is pending (log entry 1). -/
def State.withCommand (s : State) (cmd : CmdWord) : State :=
  { s with pending := .regWrite 8 (cmd.setWidth 64) :: s.pending }

end Sys2Proof.Machine
end

