-- ==== Sys2Proof/Machine/Step.lean ====
section
/-! DEFINITION. One step of the machine: one transaction of the host, served whole (20_memory.md R60). -/

namespace Sys2Proof.Machine

/-- One step (10_state.md R34, 20_memory.md R60). -/
def step (s : State) : Host.Outcome State Fault Refusal := serveOldest s

/-- The next step issues the command word given by the low `nbits` bits of `w`: a command comes from the host's
write to `CMD` and from nowhere else (10_state.md R24, R27; log entry 1). -/
def State.withFetchWord (s : State) (nbits w : Nat) : State :=
  s.withCommand (BitVec.ofNat 32 (w % 2 ^ nbits))

end Sys2Proof.Machine
end

