-- ==== Sys2Proof/Machine/Pseudo.lean ====
section
/-! DEFINITION. The assembler's spellings: the 28 pseudo-commands (30_encoding.md R98, R99, 43_combine.md R222) and the
text of a command (R97). They are spellings of command words and add no behaviour. -/

namespace Sys2Proof.Machine

/-- The unit of an accessor (42_fixed_width_accessors.md, opening). -/
inductive AccessUnit where
  | byte
  | word
  | dword
deriving DecidableEq, Repr

/-- The width `U` of a unit in bits (42_fixed_width_accessors.md, opening). -/
def unitBits : AccessUnit → Nat
  | .byte => 8
  | .word => 16
  | .dword => 32

/-- The low and the high form of an accessor (42_fixed_width_accessors.md R195). -/
inductive Half where
  | low
  | high
deriving DecidableEq, Repr

/-- `begin` of a low or high form: 0 or the unit's own width (R195). -/
def halfBegin (u : AccessUnit) : Half → Byte
  | .low => 0
  | .high => BitVec.ofNat 8 (unitBits u)

/-- The pseudo-commands: 24 low and high forms (R98), the default-count SETBITS and the three wrappers (R99). -/
inductive Pseudo where
  /-- `GETLOWBYTE`, `GETHIGHBYTE`, `GETLOWWORD`, … -/
  | getHalf (h : Half) (u : AccessUnit) (w : Width) (rd rs : Reg)
  /-- `SETLOWBYTE`, … -/
  | setHalf (h : Half) (u : AccessUnit) (w : Width) (rd rs : Reg)
  /-- `CLRLOWBYTE`, … -/
  | clrHalf (h : Half) (u : AccessUnit) (w : Width) (rd : Reg)
  /-- `FILLLOWBYTE`, … -/
  | fillHalf (h : Half) (u : AccessUnit) (w : Width) (rd : Reg)
  /-- `SETBITS.W rd, rs:V, #b`. -/
  | setbitsTyped (w : Width) (rd rs : Reg) (v : Width) (b : Byte)
  /-- `CMBBYTE`, `CMBWORD`, `CMBDWORD`. -/
  | cmb (u : AccessUnit) (rd rs rt : Reg)
deriving DecidableEq, Repr

/-- The accessor that reads a unit (30_encoding.md R90). -/
def getAccessor : AccessUnit → FormatB → Instr
  | .byte => .getbyte
  | .word => .getword
  | .dword => .getdword

/-- The accessor that replaces a unit (R90). -/
def setAccessor : AccessUnit → FormatB → Instr
  | .byte => .setbyte
  | .word => .setword
  | .dword => .setdword

/-- The accessor that zeroes a unit (R90). -/
def clrAccessor : AccessUnit → FormatB → Instr
  | .byte => .clrbyte
  | .word => .clrword
  | .dword => .clrdword

/-- The accessor that fills a unit (R90). -/
def fillAccessor : AccessUnit → FormatB → Instr
  | .byte => .fillbyte
  | .word => .fillword
  | .dword => .filldword

/-- The command a pseudo-command stands for, with 0 in every ignored field (R98, R99). -/
def expandPseudo : Pseudo → Instr
  | .getHalf h u w rd rs => getAccessor u ⟨w, rd, rs, halfBegin u h, 0⟩
  | .setHalf h u w rd rs => setAccessor u ⟨w, rd, rs, halfBegin u h, 0⟩
  | .clrHalf h u w rd => clrAccessor u ⟨w, rd, 0, halfBegin u h, 0⟩
  | .fillHalf h u w rd => fillAccessor u ⟨w, rd, 0, halfBegin u h, 0⟩
  | .setbitsTyped w rd rs v b => .setbits ⟨w, rd, rs, b, BitVec.ofNat 8 v.bits⟩
  | .cmb .byte rd rs rt => .combine ⟨.w16, rd, rs, .w8, 0, rt, 0⟩
  | .cmb .word rd rs rt => .combine ⟨.w32, rd, rs, .w16, 0, rt, 0⟩
  | .cmb .dword rd rs rt => .combine ⟨.w64, rd, rs, .w32, 0, rt, 0⟩

/-- A width suffix, `.8`, `.16`, `.32` or `.64` (R97). -/
def widthSuffix : Width → String
  | .w8 => ".8"
  | .w16 => ".16"
  | .w32 => ".32"
  | .w64 => ".64"

/-- The suffix of an endianness code (R97); the reserved code has no spelling of its own. -/
def orderSuffix : Endian → String
  | .native => ""
  | .little => ".le"
  | .big => ".be"
  | .reserved => ""

/-- A register's name (R97). -/
def regName (r : Reg) : String := "r" ++ toString r.val

/-- An immediate, `#` and a decimal number (R97). -/
def immText (n : Byte) : String := "#" ++ toString n.toNat

/-- `NAME.W rd, rs, #b, #c`. -/
def spellRun (name : String) (f : FormatB) : String :=
  name ++ widthSuffix f.w ++ " " ++ regName f.rd ++ ", " ++ regName f.rs ++ ", " ++ immText f.b ++ ", " ++ immText f.c

/-- `NAME.W rd, #b, #c`. -/
def spellRunInPlace (name : String) (f : FormatB) : String :=
  name ++ widthSuffix f.w ++ " " ++ regName f.rd ++ ", " ++ immText f.b ++ ", " ++ immText f.c

/-- `NAME.W rd, #b`. -/
def spellBit (name : String) (f : FormatB) : String :=
  name ++ widthSuffix f.w ++ " " ++ regName f.rd ++ ", " ++ immText f.b

/-- `NAME.W rd, rs, #b`. -/
def spellUnit (name : String) (f : FormatB) : String :=
  name ++ widthSuffix f.w ++ " " ++ regName f.rd ++ ", " ++ regName f.rs ++ ", " ++ immText f.b

/-- `NAME.W rd, rs, #n`. -/
def spellList (name : String) (f : FormatB) : String :=
  name ++ widthSuffix f.w ++ " " ++ regName f.rd ++ ", " ++ regName f.rs ++ ", " ++ immText f.c

/-- `NAME.W[.le|.be] r, [rt], rl`. -/
def spellTransfer (name : String) (r : Reg) (f : FormatX) : String :=
  name ++ widthSuffix f.w ++ orderSuffix f.e ++ " " ++ regName r ++ ", [" ++ regName f.rt ++ "], " ++ regName f.rl

/-- The text of a command (R97). -/
def spelling : Instr → String
  | .getbits f => spellRun "GETBITS" f
  | .clrbits f => spellRunInPlace "CLRBITS" f
  | .setbits f => spellRun "SETBITS" f
  | .fillbits f => spellRunInPlace "FILLBITS" f
  | .isbitset f => spellBit "ISBITSET" f
  | .setbit f => spellBit "SETBIT" f
  | .clrbit f => spellBit "CLRBIT" f
  | .clrbitsl f => spellList "CLRBITSL" f
  | .fillbitsl f => spellList "FILLBITSL" f
  | .isany f => spellList "ISANY" f
  | .areall f => spellList "AREALL" f
  | .isnone f => spellList "ISNONE" f
  | .getbyte f => spellUnit "GETBYTE" f
  | .setbyte f => spellUnit "SETBYTE" f
  | .clrbyte f => spellBit "CLRBYTE" f
  | .fillbyte f => spellBit "FILLBYTE" f
  | .getword f => spellUnit "GETWORD" f
  | .setword f => spellUnit "SETWORD" f
  | .clrword f => spellBit "CLRWORD" f
  | .fillword f => spellBit "FILLWORD" f
  | .getdword f => spellUnit "GETDWORD" f
  | .setdword f => spellUnit "SETDWORD" f
  | .clrdword f => spellBit "CLRDWORD" f
  | .filldword f => spellBit "FILLDWORD" f
  | .combine f =>
    "COMBINE" ++ widthSuffix f.w ++ widthSuffix f.p ++ " " ++ regName f.rd ++ ", " ++ regName f.rs ++ ", " ++ regName f.rt
  | .wrb f => spellTransfer "WRB" f.rs f
  | .rdb f => spellTransfer "RDB" f.rd f

end Sys2Proof.Machine
end

