-- ==== Sys2Proof/Safety.lean ====
section
/-! DEFINITION. The terms claims are stated in: what a step may leave unchanged, which registers a command names, and
the invariant every step keeps. -/

namespace Sys2Proof

/-- A command that meets a width check: the 12 accessors and COMBINE (30_encoding.md R92). -/
def Instr.checksWidth : Instr → Bool
  | .getbyte _ | .setbyte _ | .clrbyte _ | .fillbyte _
  | .getword _ | .setword _ | .clrword _ | .fillword _
  | .getdword _ | .setdword _ | .clrdword _ | .filldword _ | .combine _ => true
  | .getbits _ | .clrbits _ | .setbits _ | .fillbits _ | .isbitset _ | .setbit _ | .clrbit _
  | .clrbitsl _ | .fillbitsl _ | .isany _ | .areall _ | .isnone _ | .wrb _ | .rdb _ => false

/-- The window fields of a transfer command (44_byte_transfer.md). -/
def Instr.transfer : Instr → Option FormatX
  | .wrb f | .rdb f => some f
  | .getbyte _ | .setbyte _ | .clrbyte _ | .fillbyte _
  | .getword _ | .setword _ | .clrword _ | .fillword _
  | .getdword _ | .setdword _ | .clrdword _ | .filldword _ | .combine _
  | .getbits _ | .clrbits _ | .setbits _ | .fillbits _ | .isbitset _ | .setbit _ | .clrbit _
  | .clrbitsl _ | .fillbitsl _ | .isany _ | .areall _ | .isnone _ => none

/-- The register a command writes, if any (10_state.md R21). -/
def Instr.destination : Instr → Option Reg
  | .getbits f | .clrbits f | .setbits f | .fillbits f | .setbit f | .clrbit f
  | .clrbitsl f | .fillbitsl f
  | .getbyte f | .setbyte f | .clrbyte f | .fillbyte f
  | .getword f | .setword f | .clrword f | .fillword f
  | .getdword f | .setdword f | .clrdword f | .filldword f => some f.rd
  | .combine f => some f.rd
  | .rdb f => some f.rd
  | .isbitset _ | .isany _ | .areall _ | .isnone _ | .wrb _ => none

/-- The registers a command reads (10_state.md R21). -/
def Instr.sources : Instr → List Reg
  | .getbits f | .getbyte f | .getword f | .getdword f => [f.rs]
  | .clrbits f | .fillbits f | .setbit f | .clrbit f
  | .clrbyte f | .clrword f | .clrdword f | .fillbyte f | .fillword f | .filldword f
  | .isbitset f => [f.rd]
  | .setbits f | .setbyte f | .setword f | .setdword f
  | .clrbitsl f | .fillbitsl f | .isany f | .areall f | .isnone f => [f.rd, f.rs]
  | .combine f => [f.rs, f.rt]
  | .wrb f => [f.rs, f.rt, f.rl]
  | .rdb f => [f.rt, f.rl]

/-- A command that writes `T` (10_state.md R25). -/
def Instr.writesTruth : Instr → Bool
  | .isbitset _ | .isany _ | .areall _ | .isnone _ | .wrb _ | .rdb _ => true
  | .getbits _ | .clrbits _ | .setbits _ | .fillbits _ | .setbit _ | .clrbit _
  | .clrbitsl _ | .fillbitsl _
  | .getbyte _ | .setbyte _ | .clrbyte _ | .fillbyte _
  | .getword _ | .setword _ | .clrword _ | .fillword _
  | .getdword _ | .setdword _ | .clrdword _ | .filldword _ | .combine _ => false

/-- The width field `w` of a command: its container, result or value width (30_encoding.md R81). -/
def Instr.width : Instr → Width
  | .getbits f | .clrbits f | .setbits f | .fillbits f | .isbitset f | .setbit f | .clrbit f
  | .clrbitsl f | .fillbitsl f | .isany f | .areall f | .isnone f
  | .getbyte f | .setbyte f | .clrbyte f | .fillbyte f
  | .getword f | .setword f | .clrword f | .fillword f
  | .getdword f | .setdword f | .clrdword f | .filldword f => f.w
  | .combine f => f.w
  | .wrb f | .rdb f => f.w

end Sys2Proof

namespace Sys2Proof.Machine

/-- The parameters, the reset count and the host's side are as before. -/
def SameSurroundings (s t : State) : Prop :=
  t.nativeOrder = s.nativeOrder ∧ t.bufBytes = s.bufBytes ∧ t.resets = s.resets ∧
    t.pending = s.pending ∧ t.answers = s.answers

/-- `ERR`, `ECODE` and `ECMD` are as before. -/
def SameErrors (s t : State) : Prop := t.err = s.err ∧ t.ecode = s.ecode ∧ t.ecmd = s.ecmd

/-- Every operand register is as before. -/
def SameRegs (s t : State) : Prop := ∀ r, t.reg r = s.reg r

/-- Every byte of `BUF` reads as before. -/
def SameBuf (s t : State) : Prop := ∀ a, t.bufByte a = s.bufByte a

/-- Nothing but the register `rd` may have changed. -/
def OnlyRegWritten (rd : Reg) (s t : State) : Prop :=
  (∀ r, r ≠ rd → t.reg r = s.reg r) ∧ t.tFlag = s.tFlag ∧ SameErrors s t ∧ SameBuf s t ∧ SameSurroundings s t

/-- Nothing but the truth flag may have changed. -/
def OnlyTruthWritten (s t : State) : Prop :=
  SameRegs s t ∧ SameErrors s t ∧ SameBuf s t ∧ SameSurroundings s t

/-- Exactly an error capture by the command word `cmd` (60_exceptions.md R262): no register, not `T`, no byte of `BUF`
changes; the error registers change only if `ERR` was 0. -/
def OnlyErrorCaptured (code : ErrorCode) (cmd : CmdWord) (s t : State) : Prop :=
  SameRegs s t ∧ t.tFlag = s.tFlag ∧ SameBuf s t ∧ SameSurroundings s t ∧
    (s.err = true → SameErrors s t) ∧
    (s.err = false → t.err = true ∧ t.ecode = code.number ∧ t.ecmd = cmd)

/-- The window of the command, if it has one, lies in `BUF` (20_memory.md R66). -/
def WindowOk (i : Instr) (s : State) : Prop :=
  ∀ f, i.transfer = some f → (s.reg f.rt).toNat + (s.reg f.rl).toNat ≤ s.bufBytes

/-- The recorded word is one that raises the recorded cause (60_exceptions.md R261): code 1 a reserved opcode, code 2
an ill-typed width, code 3 a reserved field value, code 4 a transfer command that passes the earlier checks. -/
def Explains (ecode : BitVec 4) (ecmd : CmdWord) : Prop :=
  match decode ecmd with
  | .error _ => ecode = 1
  | .ok i =>
    (ecode = 2 ∧ i.checksWidth = true ∧ i.wellTyped = false) ∨
    (ecode = 3 ∧ i.checksWidth = false ∧ i.wellTyped = false) ∨
    (ecode = 4 ∧ i.transfer.isSome = true ∧ i.wellTyped = true)

/-- What holds of every state a run can reach: `BUF_BYTES` is in its range (00_scope.md R5), the bytes of `BUF` are in
canonical form and at addresses that exist (20_memory.md R50), with `ERR = 0` nothing is recorded (10_state.md R28,
R29), and with `ERR = 1` the recorded word explains the recorded code (60_exceptions.md R261, R262). -/
structure State.Inv (s : State) : Prop where
  bufBytes_ge : 8 ≤ s.bufBytes
  bufBytes_lt : s.bufBytes < 2 ^ 24
  buf_wf : Memory.wf s.buf
  buf_inside : ∀ cell ∈ s.buf, cell.1 < s.bufBytes
  no_error : s.err = false → s.ecode = 0 ∧ s.ecmd = 0
  error_explained : s.err = true → Explains s.ecode s.ecmd

end Sys2Proof.Machine
end

