-- ==== Sys2Proof/Certificates/Slice0/Obligations.lean ====
section
/-! DEFINITION. The statements for the provers. Helpers come first, then one `def Obligations.<Name> : Prop` each.
A bit of a register is `(s.reg r).getLsbD j`, which is false for `j >= 64`. -/

open Sys2Proof Sys2Proof.Machine

namespace Sys2Proof.Claims

/-- The opcodes that 30_encoding.md R91 lists as reserved. -/
def ReservedOpcode (op : Nat) : Prop :=
  op ≤ 0x0F ∨ op = 0x17 ∨ (0x1D ≤ op ∧ op ≤ 0x1F) ∨ (0x2C ≤ op ∧ op ≤ 0x2F) ∨ (0x31 ≤ op ∧ op ≤ 0x3F) ∨ 0x42 ≤ op

/-- The state in which the transaction at the head of the host's list has left it. -/
def afterTaking (s : State) (rest : List HostTxn) : State := { s with pending := rest }

/-- The byte order that endianness code `e` selects (20_memory.md R55). -/
def SelectsOrder (s : State) (e : Endian) (E : ByteOrder) : Prop :=
  (e = .native ∧ E = s.nativeOrder) ∨ (e = .little ∧ E = .little) ∨ (e = .big ∧ E = .big)

/-- `j` is one of the first `c` bytes of `x[rs]` (41_bit_lists.md R160). -/
def Listed (f : FormatB) (s : State) (j : Nat) : Prop :=
  ∃ k < f.c.toNat, ((s.reg f.rs).extractLsb' (8 * k) 8).toNat = j

/-- A list of more than 8 indices raises `BAD_FIELD` with no other effect (30_encoding.md R93). -/
def LongListRaises (mk : FormatB → Instr) : Prop :=
  ∀ (f : FormatB) (s : State), 8 < f.c.toNat →
    ∃ t, exec (mk f) s = .next t ∧ OnlyErrorCaptured .badField (encode (mk f)) s t

/-- A container not wider than the unit raises `BAD_WIDTH` with no other effect (30_encoding.md R92). -/
def NarrowContainerRaises (U : Nat) (mk : FormatB → Instr) : Prop :=
  ∀ (f : FormatB) (s : State), f.w.bits ≤ U →
    ∃ t, exec (mk f) s = .next t ∧ OnlyErrorCaptured .badWidth (encode (mk f)) s t

/-- The GET accessor of a unit (42_fixed_width_accessors.md R183, R187, R191). -/
def ExtractsUnit (U : Nat) (mk : FormatB → Instr) : Prop :=
  ∀ (f : FormatB) (s : State), U < f.w.bits →
    ∃ t, exec (mk f) s = .next t ∧ OnlyRegWritten f.rd s t ∧
      ∀ j, (t.reg f.rd).getLsbD j =
        (decide (j < U ∧ f.b.toNat + j < f.w.bits) && (s.reg f.rs).getLsbD (f.b.toNat + j))

/-- The SET accessor of a unit (R184, R188, R192, R196). -/
def ReplacesUnit (U : Nat) (mk : FormatB → Instr) : Prop :=
  ∀ (f : FormatB) (s : State), U < f.w.bits →
    ∃ t, exec (mk f) s = .next t ∧ OnlyRegWritten f.rd s t ∧
      ∀ j, (t.reg f.rd).getLsbD j =
        if f.b.toNat ≤ j ∧ j < f.b.toNat + U ∧ j < f.w.bits then (s.reg f.rs).getLsbD (j - f.b.toNat)
        else decide (j < f.w.bits) && (s.reg f.rd).getLsbD j

/-- The CLR accessor of a unit (R185, R189, R193). -/
def ZeroesUnit (U : Nat) (mk : FormatB → Instr) : Prop :=
  ∀ (f : FormatB) (s : State), U < f.w.bits →
    ∃ t, exec (mk f) s = .next t ∧ OnlyRegWritten f.rd s t ∧
      ∀ j, (t.reg f.rd).getLsbD j =
        (decide (j < f.w.bits) && (s.reg f.rd).getLsbD j && !decide (f.b.toNat ≤ j ∧ j < f.b.toNat + U))

/-- The FILL accessor of a unit (R186, R190, R194). -/
def FillsUnit (U : Nat) (mk : FormatB → Instr) : Prop :=
  ∀ (f : FormatB) (s : State), U < f.w.bits →
    ∃ t, exec (mk f) s = .next t ∧ OnlyRegWritten f.rd s t ∧
      ∀ j, (t.reg f.rd).getLsbD j =
        (decide (j < f.w.bits) && ((s.reg f.rd).getLsbD j || decide (f.b.toNat ≤ j ∧ j < f.b.toNat + U)))

/-- The reserved endianness code raises `BAD_FIELD`, also over a bad window, and otherwise a window that leaves `BUF`
raises `BUF_RANGE` (30_encoding.md R95, 20_memory.md R66). -/
def BadTransferRaises (mk : FormatX → Instr) : Prop :=
  ∀ (f : FormatX) (s : State),
    (f.e = .reserved → ∃ t, exec (mk f) s = .next t ∧ OnlyErrorCaptured .badField (encode (mk f)) s t) ∧
    (f.e ≠ .reserved → s.bufBytes < (s.reg f.rt).toNat + (s.reg f.rl).toNat →
      ∃ t, exec (mk f) s = .next t ∧ OnlyErrorCaptured .bufRange (encode (mk f)) s t)

/-- Which byte of an `m`-byte value stands at window offset `k` (20_memory.md R54). -/
def byteAt (E : ByteOrder) (m k : Nat) : Nat :=
  match E with
  | .little => k
  | .big => m - 1 - k

end Sys2Proof.Claims

open Sys2Proof.Claims

/-! Encoding -/

/-- Decoding the word of any command, with every operand and every ignored field, gives the command back. -/
def Obligations.DecodeEncodeRoundTrip : Prop := ∀ i : Instr, decode (encode i) = .ok i

/-- Encoding the command a word decodes to gives back all 32 bits of the word, so `ECMD` loses nothing (R262). -/
def Obligations.EncodeRecoversTheWord : Prop := ∀ (cmd : CmdWord) (i : Instr), decode cmd = .ok i → encode i = cmd

/-- The example words of 30_encoding.md R97 and of 95_test_vectors.md decode to the commands named there. -/
def Obligations.SampleWordsDecode : Prop :=
  decode 0x10910408 = .ok (.getbits ⟨.w32, 2, 1, 4, 8⟩) ∧
  decode 0x30590200 = .ok (.combine ⟨.w16, 3, 1, .w8, 0, 2, 0⟩) ∧
  decode 0x40818203 = .ok (.wrb ⟨.w32, 0, 1, .big, 0, 2, 0, 3⟩) ∧
  decode 0x41A04203 = .ok (.rdb ⟨.w32, 4, 0, .little, 0, 2, 0, 3⟩) ∧
  decode 0x19810008 = .ok (.fillbitsl ⟨.w32, 0, 1, 0, 8⟩) ∧
  decode 0x28D12000 = .ok (.getdword ⟨.w64, 2, 1, 32, 0⟩)

/-- R91: a command word with a reserved opcode raises `ILLEGAL_OPCODE` whatever its other fields hold, and every other
word runs the command it decodes to. -/
def Obligations.ReservedOpcodeRaises : Prop :=
  ∀ (s : State) (d : Word) (rest : List HostTxn), s.pending = .regWrite 8 d :: rest →
    (ReservedOpcode (d.extractLsb' 24 8).toNat →
      ∃ t, step s = .next t ∧ OnlyErrorCaptured .illegalOpcode (d.extractLsb' 0 32) (afterTaking s rest) t) ∧
    (¬ReservedOpcode (d.extractLsb' 24 8).toNat →
      ∃ i, decode (d.extractLsb' 0 32) = .ok i ∧ step s = exec i (afterTaking s rest))

/-! Steps and the host port -/

/-- A step runs the decoded command: a write of `d` to `CMD` takes itself off the host's list and runs the command of
`d[31:0]`, whatever `d[63:32]` holds (R27). -/
def Obligations.StepRunsDecodedCommand : Prop :=
  ∀ (s : State) (d : Word) (rest : List HostTxn) (i : Instr), s.pending = .regWrite 8 d :: rest →
    decode (d.extractLsb' 0 32) = .ok i → step s = exec i (afterTaking s rest)

/-- A word placed by withFetchWord is the very next command to run, on the state as it was. -/
def Obligations.FetchedWordRunsNext : Prop :=
  ∀ (s : State) (w : Nat) (i : Instr), w < 2 ^ 32 → decodeTableWord 32 w = some i →
    step (s.withFetchWord 32 w) = exec i s

/-- With nothing pending the unit is idle (the model's reading of R6, log entry 1). -/
def Obligations.IdleUnitChangesNothing : Prop := ∀ s : State, s.pending = [] → step s = .next s

/-- R60: a step sees the state left by all earlier steps and none of any later step: what the host has still to issue
does not influence the transaction being served. -/
def Obligations.LaterTransactionsDoNotInfluence : Prop :=
  ∀ (s t : State) (txn : HostTxn) (rest rest' : List HostTxn), s.pending = txn :: rest → step s = .next t →
    t.pending = rest ∧ step { s with pending := txn :: rest' } = .next { t with pending := rest' }

/-- HostRegRead(i) returns the value of index `i` and has no side effect (R26, R28, R29, R31, R34). -/
def Obligations.HostRegReadReturnsTheIndexedValue : Prop :=
  ∀ (s : State) (i : Fin 16) (rest : List HostTxn), s.bufBytes < 2 ^ 24 → s.pending = .regRead i :: rest →
    ∃ v : Word, step s = .next { s with pending := rest, answers := s.answers ++ [.regValue v] } ∧
      (∀ h : i.val < 8, v = s.reg ⟨i.val, h⟩) ∧
      (i.val = 8 → v = 0) ∧
      (i.val = 9 → ∀ j, v.getLsbD j =
        if j = 0 then s.tFlag else if j = 1 then s.err else decide (4 ≤ j) && s.ecode.getLsbD (j - 4)) ∧
      (i.val = 10 → v.toNat = s.ecmd.toNat) ∧
      (i.val = 11 → v.toNat = 256 * s.bufBytes + if s.nativeOrder = .big then 1 else 0) ∧
      (12 ≤ i.val → v = 0)

/-- HostRegWrite(i, d) stores all 64 bits at an operand register and nothing at ECMD, CONFIG and the reserved
indices (R26, R34). -/
def Obligations.HostRegWriteStoresAndIgnores : Prop :=
  ∀ (s : State) (i : Fin 16) (d : Word) (rest : List HostTxn), s.pending = .regWrite i d :: rest →
    (∀ h : i.val < 8, ∃ t, step s = .next t ∧
      OnlyRegWritten ⟨i.val, h⟩ (afterTaking s rest) t ∧ t.reg ⟨i.val, h⟩ = d) ∧
    (10 ≤ i.val → step s = .next (afterTaking s rest))

/-- R264: a host write to STATUS with bit 1 set clears ERR, ECODE and ECMD and nothing else, one with bit 1 clear does
nothing, and ERR falls in no other way but reset. -/
def Obligations.StatusWriteClearsError : Prop :=
  (∀ (s : State) (d : Word) (rest : List HostTxn), s.pending = .regWrite 9 d :: rest →
    ∃ t, step s = .next t ∧ SameRegs s t ∧ t.tFlag = s.tFlag ∧ SameBuf s t ∧
      SameSurroundings (afterTaking s rest) t ∧
      (d.getLsbD 1 = true → t.err = false ∧ t.ecode = 0 ∧ t.ecmd = 0) ∧
      (d.getLsbD 1 = false → t = afterTaking s rest)) ∧
  (∀ s t : State, step s = .next t → s.err = true → t.err = false →
    ∃ rest, s.pending = .reset :: rest ∨ ∃ d : Word, d.getLsbD 1 = true ∧ s.pending = .regWrite 9 d :: rest)

/-- HostBufRead returns the byte and changes nothing else; HostBufWrite stores the byte and changes nothing else; an
address that the port cannot express is refused (R34, U14). -/
def Obligations.HostBufReadsAndWritesOneByte : Prop :=
  ∀ (s : State) (a : Nat) (v : Byte) (rest : List HostTxn),
    (s.pending = .bufRead a :: rest →
      (a < s.bufBytes →
        step s = .next { s with pending := rest, answers := s.answers ++ [.bufByte (s.bufByte a)] }) ∧
      (s.bufBytes ≤ a → step s = .refused (.hostBufAddressOutside a))) ∧
    (s.pending = .bufWrite a v :: rest →
      (a < s.bufBytes →
        ∃ t, step s = .next t ∧ t.bufByte a = v ∧ (∀ a', a' ≠ a → t.bufByte a' = s.bufByte a') ∧
          SameRegs s t ∧ t.tFlag = s.tFlag ∧ SameErrors s t ∧ SameSurroundings (afterTaking s rest) t) ∧
      (s.bufBytes ≤ a → step s = .refused (.hostBufAddressOutside a)))

/-- HostReset, and State.reset, leave every register, T, ERR, ECODE and ECMD at 0 and the parameters as they are
(R36, R300); that the host's own list is kept is the model's choice (log entry 3). -/
def Obligations.ResetLeavesTheResetValues : Prop :=
  (∀ (s : State) (rest : List HostTxn), s.pending = .reset :: rest →
    ∃ t, step s = .next t ∧ (∀ r, t.reg r = 0) ∧ t.tFlag = false ∧ t.err = false ∧ t.ecode = 0 ∧ t.ecmd = 0 ∧
      t.nativeOrder = s.nativeOrder ∧ t.bufBytes = s.bufBytes ∧ t.pending = rest) ∧
  ((∀ r, State.reset.reg r = 0) ∧ State.reset.tFlag = false ∧ State.reset.err = false ∧ State.reset.ecode = 0 ∧
    State.reset.ecmd = 0)

/-- Every step completes but for a host access to a byte that does not exist: no command stops the unit, whatever its
operands (R10, R306). -/
def Obligations.EveryTransactionCompletes : Prop :=
  ∀ s : State, (∃ t, step s = .next t) ↔
    ∀ a rest, (s.pending = .bufRead a :: rest → a < s.bufBytes) ∧
      (∀ v, s.pending = .bufWrite a v :: rest → a < s.bufBytes)

/-! Errors -/

/-- R96: a well-typed command never raises, a transfer command unless its window leaves BUF: it completes and leaves
ERR, ECODE and ECMD alone. -/
def Obligations.WellTypedCommandNeverRaises : Prop :=
  ∀ (i : Instr) (s : State), i.wellTyped = true → WindowOk i s →
    ∃ t, exec i s = .next t ∧ SameErrors s t ∧ SameSurroundings s t

/-- A command that is not well-typed raises BAD_WIDTH (accessors, COMBINE) or BAD_FIELD (lists, transfers) with no other
effect, and the captured word is its own (R92, R93, R262). -/
def Obligations.IllTypedCommandRaises : Prop :=
  ∀ (i : Instr) (s : State), i.wellTyped = false →
    ∃ t, exec i s = .next t ∧
      OnlyErrorCaptured (if i.checksWidth then .badWidth else .badField) (encode i) s t

/-- A command raises exactly if it is ill-typed or its window leaves BUF, and reports the first error in the order of
R95, with its whole word (R263, R262). -/
def Obligations.RaisedCodeFollowsTheOrder : Prop :=
  ∀ (i : Instr) (s t : State), s.err = false → exec i s = .next t →
    (t.err = true ↔ i.wellTyped = false ∨ ¬WindowOk i s) ∧
    (t.err = true → t.ecmd = encode i ∧
      t.ecode = if i.wellTyped then 4 else if i.checksWidth then 2 else 3)

/-- R265: ERR does not block the unit. Whatever is recorded, a command has the same effect on the registers, T and BUF,
and while ERR = 1 what is recorded stays, and a command that raises, reserved opcodes among them, has no effect. -/
def Obligations.ErrorDoesNotBlock : Prop :=
  (∀ (i : Instr) (s t : State) (e : Bool) (code : BitVec 4) (cmd : CmdWord), exec i s = .next t →
    ∃ t', exec i { s with err := e, ecode := code, ecmd := cmd } = .next t' ∧
      SameRegs t t' ∧ t'.tFlag = t.tFlag ∧ SameBuf t t' ∧ SameSurroundings t t' ∧
      (e = true → t'.err = true ∧ t'.ecode = code ∧ t'.ecmd = cmd)) ∧
  (∀ (i : Instr) (s : State), s.err = true → (i.wellTyped = false ∨ ¬WindowOk i s) → exec i s = .next s) ∧
  (∀ (cmd : CmdWord) (s : State), s.err = true → ReservedOpcode (opField cmd).toNat → issueCommand cmd s = .next s)

/-! The commands -/

/-- R130: GETBITS writes the run, moved down to bit 0; 0 for an offset out of range, the whole container for a count
of the width or more. -/
def Obligations.GetbitsExtractsRun : Prop :=
  ∀ (f : FormatB) (s : State),
    (∃ t, exec (.getbits f) s = .next t ∧ OnlyRegWritten f.rd s t ∧
      ∀ j, (t.reg f.rd).getLsbD j =
        if f.b.toNat ≥ f.w.bits then false
        else if f.c.toNat ≥ f.w.bits then decide (j < f.w.bits) && (s.reg f.rs).getLsbD j
        else decide (j < f.c.toNat ∧ f.b.toNat + j < f.w.bits) && (s.reg f.rs).getLsbD (f.b.toNat + j)) ∧
    decode (encodeB 0x10 f) = .ok (.getbits f)

/-- R131: CLRBITS zeroes the run, the whole container for a count of the width or more. -/
def Obligations.ClrbitsZeroesRun : Prop :=
  ∀ (f : FormatB) (s : State),
    (∃ t, exec (.clrbits f) s = .next t ∧ OnlyRegWritten f.rd s t ∧
      ∀ j, (t.reg f.rd).getLsbD j =
        (decide (j < f.w.bits) && (s.reg f.rd).getLsbD j &&
          !decide (f.b.toNat < f.w.bits ∧
            (f.c.toNat ≥ f.w.bits ∨ (f.b.toNat ≤ j ∧ j < f.b.toNat + f.c.toNat))))) ∧
    decode (encodeB 0x11 f) = .ok (.clrbits f)

/-- R132: SETBITS replaces the run clipped to the container by the low bits of the source. -/
def Obligations.SetbitsReplacesRun : Prop :=
  ∀ (f : FormatB) (s : State),
    (∃ t, exec (.setbits f) s = .next t ∧ OnlyRegWritten f.rd s t ∧
      ∀ j, (t.reg f.rd).getLsbD j =
        if f.b.toNat ≤ j ∧ j < f.b.toNat + f.c.toNat ∧ j < f.w.bits then (s.reg f.rs).getLsbD (j - f.b.toNat)
        else decide (j < f.w.bits) && (s.reg f.rd).getLsbD j) ∧
    decode (encodeB 0x12 f) = .ok (.setbits f)

/-- R133: FILLBITS sets the run clipped to the container. -/
def Obligations.FillbitsSetsRun : Prop :=
  ∀ (f : FormatB) (s : State),
    (∃ t, exec (.fillbits f) s = .next t ∧ OnlyRegWritten f.rd s t ∧
      ∀ j, (t.reg f.rd).getLsbD j =
        (decide (j < f.w.bits) &&
          ((s.reg f.rd).getLsbD j || decide (f.b.toNat ≤ j ∧ j < f.b.toNat + f.c.toNat)))) ∧
    decode (encodeB 0x13 f) = .ok (.fillbits f)

/-- R134: ISBITSET sets T to the tested bit, to 0 out of range, and changes nothing else. -/
def Obligations.IsbitsetTestsBit : Prop :=
  ∀ (f : FormatB) (s : State),
    (∃ t, exec (.isbitset f) s = .next t ∧ OnlyTruthWritten s t ∧
      t.tFlag = (decide (f.b.toNat < f.w.bits) && (s.reg f.rd).getLsbD f.b.toNat)) ∧
    decode (encodeB 0x14 f) = .ok (.isbitset f)

/-- R135: SETBIT sets the one bit, no bit out of range. -/
def Obligations.SetbitSetsOneBit : Prop :=
  ∀ (f : FormatB) (s : State),
    (∃ t, exec (.setbit f) s = .next t ∧ OnlyRegWritten f.rd s t ∧
      ∀ j, (t.reg f.rd).getLsbD j =
        (decide (j < f.w.bits) && ((s.reg f.rd).getLsbD j || decide (j = f.b.toNat)))) ∧
    decode (encodeB 0x15 f) = .ok (.setbit f)

/-- R136: CLRBIT clears the one bit, no bit out of range. -/
def Obligations.ClrbitClearsOneBit : Prop :=
  ∀ (f : FormatB) (s : State),
    (∃ t, exec (.clrbit f) s = .next t ∧ OnlyRegWritten f.rd s t ∧
      ∀ j, (t.reg f.rd).getLsbD j =
        (decide (j < f.w.bits) && (s.reg f.rd).getLsbD j && !decide (j = f.b.toNat))) ∧
    decode (encodeB 0x16 f) = .ok (.clrbit f)

/-- R164: CLRBITSL clears exactly the listed bits of the container; a list of more than 8 raises. -/
def Obligations.ClrbitslClearsListedBits : Prop :=
  (∀ (f : FormatB) (s : State), f.c.toNat ≤ 8 →
    ∃ t, exec (.clrbitsl f) s = .next t ∧ OnlyRegWritten f.rd s t ∧
      ∀ j, (t.reg f.rd).getLsbD j = true ↔ j < f.w.bits ∧ (s.reg f.rd).getLsbD j = true ∧ ¬Listed f s j) ∧
  LongListRaises .clrbitsl ∧ ∀ f, decode (encodeB 0x18 f) = .ok (.clrbitsl f)

/-- R165: FILLBITSL sets exactly the listed bits of the container; a list of more than 8 raises. -/
def Obligations.FillbitslSetsListedBits : Prop :=
  (∀ (f : FormatB) (s : State), f.c.toNat ≤ 8 →
    ∃ t, exec (.fillbitsl f) s = .next t ∧ OnlyRegWritten f.rd s t ∧
      ∀ j, (t.reg f.rd).getLsbD j = true ↔ j < f.w.bits ∧ ((s.reg f.rd).getLsbD j = true ∨ Listed f s j)) ∧
  LongListRaises .fillbitsl ∧ ∀ f, decode (encodeB 0x19 f) = .ok (.fillbitsl f)

/-- R166: ISANY: T is 1 iff some listed bit in range is set; a list of more than 8 raises. -/
def Obligations.IsanyTestsForSomeBit : Prop :=
  (∀ (f : FormatB) (s : State), f.c.toNat ≤ 8 →
    ∃ t, exec (.isany f) s = .next t ∧ OnlyTruthWritten s t ∧
      (t.tFlag = true ↔ ∃ j, Listed f s j ∧ j < f.w.bits ∧ (s.reg f.rd).getLsbD j = true)) ∧
  LongListRaises .isany ∧ ∀ f, decode (encodeB 0x1A f) = .ok (.isany f)

/-- R167: AREALL: T is 1 iff every listed bit is in range and set; a list of more than 8 raises. -/
def Obligations.AreallTestsForEveryBit : Prop :=
  (∀ (f : FormatB) (s : State), f.c.toNat ≤ 8 →
    ∃ t, exec (.areall f) s = .next t ∧ OnlyTruthWritten s t ∧
      (t.tFlag = true ↔ ∀ j, Listed f s j → j < f.w.bits ∧ (s.reg f.rd).getLsbD j = true)) ∧
  LongListRaises .areall ∧ ∀ f, decode (encodeB 0x1B f) = .ok (.areall f)

/-- R168: ISNONE: T is 1 iff no listed bit in range is set; a list of more than 8 raises. -/
def Obligations.IsnoneTestsForNoBit : Prop :=
  (∀ (f : FormatB) (s : State), f.c.toNat ≤ 8 →
    ∃ t, exec (.isnone f) s = .next t ∧ OnlyTruthWritten s t ∧
      (t.tFlag = true ↔ ¬∃ j, Listed f s j ∧ j < f.w.bits ∧ (s.reg f.rd).getLsbD j = true)) ∧
  LongListRaises .isnone ∧ ∀ f, decode (encodeB 0x1C f) = .ok (.isnone f)

/-- R183, R187, R191: GETBYTE, GETWORD, GETDWORD extract their unit at a bit offset, clipped to the container. -/
def Obligations.GetAccessorsExtractUnit : Prop :=
  (ExtractsUnit 8 .getbyte ∧ NarrowContainerRaises 8 .getbyte ∧ ∀ f, decode (encodeB 0x20 f) = .ok (.getbyte f)) ∧
  (ExtractsUnit 16 .getword ∧ NarrowContainerRaises 16 .getword ∧ ∀ f, decode (encodeB 0x24 f) = .ok (.getword f)) ∧
  (ExtractsUnit 32 .getdword ∧ NarrowContainerRaises 32 .getdword ∧ ∀ f, decode (encodeB 0x28 f) = .ok (.getdword f))

/-- R184, R188, R192: SETBYTE, SETWORD, SETDWORD replace their unit, clipped to the container. -/
def Obligations.SetAccessorsReplaceUnit : Prop :=
  (ReplacesUnit 8 .setbyte ∧ NarrowContainerRaises 8 .setbyte ∧ ∀ f, decode (encodeB 0x21 f) = .ok (.setbyte f)) ∧
  (ReplacesUnit 16 .setword ∧ NarrowContainerRaises 16 .setword ∧ ∀ f, decode (encodeB 0x25 f) = .ok (.setword f)) ∧
  (ReplacesUnit 32 .setdword ∧ NarrowContainerRaises 32 .setdword ∧ ∀ f, decode (encodeB 0x29 f) = .ok (.setdword f))

/-- R185, R189, R193: CLRBYTE, CLRWORD, CLRDWORD zero their unit, clipped to the container. -/
def Obligations.ClrAccessorsZeroUnit : Prop :=
  (ZeroesUnit 8 .clrbyte ∧ NarrowContainerRaises 8 .clrbyte ∧ ∀ f, decode (encodeB 0x22 f) = .ok (.clrbyte f)) ∧
  (ZeroesUnit 16 .clrword ∧ NarrowContainerRaises 16 .clrword ∧ ∀ f, decode (encodeB 0x26 f) = .ok (.clrword f)) ∧
  (ZeroesUnit 32 .clrdword ∧ NarrowContainerRaises 32 .clrdword ∧ ∀ f, decode (encodeB 0x2A f) = .ok (.clrdword f))

/-- R186, R190, R194: FILLBYTE, FILLWORD, FILLDWORD set their unit, clipped to the container. -/
def Obligations.FillAccessorsSetUnit : Prop :=
  (FillsUnit 8 .fillbyte ∧ NarrowContainerRaises 8 .fillbyte ∧ ∀ f, decode (encodeB 0x23 f) = .ok (.fillbyte f)) ∧
  (FillsUnit 16 .fillword ∧ NarrowContainerRaises 16 .fillword ∧ ∀ f, decode (encodeB 0x27 f) = .ok (.fillword f)) ∧
  (FillsUnit 32 .filldword ∧ NarrowContainerRaises 32 .filldword ∧ ∀ f, decode (encodeB 0x2B f) = .ok (.filldword f))

/-- R221: COMBINE puts the low part in bits 0 .. P-1, the high part in bits P .. 2P-1 and 0 above; a result narrower
than two parts raises. -/
def Obligations.CombineConcatenatesParts : Prop :=
  ∀ (f : FormatC) (s : State),
    (2 * f.p.bits ≤ f.w.bits →
      ∃ t, exec (.combine f) s = .next t ∧ OnlyRegWritten f.rd s t ∧
        ∀ j, (t.reg f.rd).getLsbD j =
          if j < f.p.bits then (s.reg f.rt).getLsbD j
          else decide (j < 2 * f.p.bits) && (s.reg f.rs).getLsbD (j - f.p.bits)) ∧
    (f.w.bits < 2 * f.p.bits →
      ∃ t, exec (.combine f) s = .next t ∧ OnlyErrorCaptured .badWidth (encode (.combine f)) s t) ∧
    decode (encodeC 0x30 f) = .ok (.combine f)

/-- R234: WRB stores the value's `m = min(n, len)` least significant bytes, in the selected order, at the window's first
`m` addresses and nowhere else; T says whether the window held the whole value; no register changes. -/
def Obligations.WrbWritesLowBytesInOrder : Prop :=
  (∀ (f : FormatX) (s : State) (E : ByteOrder), SelectsOrder s f.e E →
    (s.reg f.rt).toNat + (s.reg f.rl).toNat ≤ s.bufBytes →
    ∃ t, exec (.wrb f) s = .next t ∧ SameRegs s t ∧ SameErrors s t ∧ SameSurroundings s t ∧
      t.tFlag = decide (f.w.bits / 8 ≤ (s.reg f.rl).toNat) ∧
      ∀ a, t.bufByte a =
        if s.windowBase f ≤ a ∧ a < s.windowBase f + s.movedBytes f then
          (s.reg f.rs).extractLsb' (8 * byteAt E (s.movedBytes f) (a - s.windowBase f)) 8
        else s.bufByte a) ∧
  BadTransferRaises .wrb ∧ ∀ f, decode (encodeX 0x40 f) = .ok (.wrb f)

/-- R235: RDB writes to `rd` the number that the window's first `m = min(n, len)` bytes spell in the selected order,
zero-extended; T says whether the window held a whole value; BUF does not change. -/
def Obligations.RdbReadsNumberInOrder : Prop :=
  (∀ (f : FormatX) (s : State) (E : ByteOrder), SelectsOrder s f.e E →
    (s.reg f.rt).toNat + (s.reg f.rl).toNat ≤ s.bufBytes →
    ∃ t, exec (.rdb f) s = .next t ∧ (∀ r, r ≠ f.rd → t.reg r = s.reg r) ∧ SameErrors s t ∧ SameBuf s t ∧
      SameSurroundings s t ∧ t.tFlag = decide (f.w.bits / 8 ≤ (s.reg f.rl).toNat) ∧
      ∀ j, (t.reg f.rd).getLsbD j =
        (decide (j < 8 * s.movedBytes f) &&
          (s.bufByte (s.windowBase f + byteAt E (s.movedBytes f) (j / 8))).getLsbD (j % 8))) ∧
  BadTransferRaises .rdb ∧ ∀ f, decode (encodeX 0x41 f) = .ok (.rdb f)

/-! Laws of the functions -/

/-- The five properties of the source and the further laws, for every width (R137, which the spec marks as derived from
R120 to R127). -/
def Obligations.PrimitiveLawsOfTheSource : Prop :=
  ∀ W v : Nat, v < 2 ^ W →
    (∀ b c, c < W → getBits W v b c < 2 ^ c) ∧
    (∀ b c, b + c ≤ W → getBits W v b c = (v >>> b) &&& ((1 <<< c) - 1)) ∧
    (∀ b c, clearBits W (clearBits W v b c) b c = clearBits W v b c) ∧
    (∀ b c, b + c ≤ W → setBits W v (getBits W v b c) b c = v) ∧
    (getBits W v 0 (W + 1) = v ∧ clearBits W v 0 W = 0 ∧ fillBits W v 0 W = ones W) ∧
    (∀ c, getBits W v W c = 0) ∧ isBitSet W v W = false ∧
    (∀ i, W ≤ i → setBit W v i = v ∧ clearBit W v i = v) ∧
    (∀ b c, fillBits W v b c = v ||| runMask W b c) ∧
    (∀ b c, ¬(0 < b ∧ b < W ∧ W ≤ c) → clearBits W v b c = v &&& notN W (runMask W b c)) ∧
    (∀ b c, ¬(0 < b ∧ b < W ∧ W ≤ c) → b < W → getBits W v b c = (v >>> b) % 2 ^ min c W) ∧
    (∀ s b c, setBits W v s b c &&& notN W (runMask W b c) = v &&& notN W (runMask W b c)) ∧
    (∀ s b c, b + c ≤ W → c < W → getBits W (setBits W v s b c) b c = s % 2 ^ c)

/-- An offset or count beyond the width may be replaced by any other one beyond the width (R128, which the spec marks as
derived from R120 to R127); so the 8-bit fields lose nothing (R87). -/
def Obligations.OnlyClampedOffsetsMatter : Prop :=
  ∀ W v s b c : Nat, v < 2 ^ W →
    (∀ b', W ≤ b → W ≤ b' →
      getBits W v b c = getBits W v b' c ∧ clearBits W v b c = clearBits W v b' c ∧
      runMask W b c = runMask W b' c ∧ setBits W v s b c = setBits W v s b' c ∧
      fillBits W v b c = fillBits W v b' c ∧ isBitSet W v b = isBitSet W v b' ∧
      setBit W v b = setBit W v b' ∧ clearBit W v b = clearBit W v b') ∧
    (∀ c', W ≤ c → W ≤ c' →
      getBits W v b c = getBits W v b c' ∧ clearBits W v b c = clearBits W v b c' ∧
      runMask W b c = runMask W b c' ∧ setBits W v s b c = setBits W v s b c' ∧
      fillBits W v b c = fillBits W v b c') ∧
    (W ≤ 64 →
      getBits W v b c = getBits W v (min b 255) (min c 255) ∧
      clearBits W v b c = clearBits W v (min b 255) (min c 255) ∧
      setBits W v s b c = setBits W v s (min b 255) (min c 255) ∧
      fillBits W v b c = fillBits W v (min b 255) (min c 255))

/-- The low and high getters invert the combination, and two SETs build it (R223, which the spec marks as derived from
R220 and R120). -/
def Obligations.CombineInvertsTheGetters : Prop :=
  ∀ P W h l : Nat, h < 2 ^ P → l < 2 ^ P → 2 * P ≤ W →
    getBits W (combine P h l) 0 P = l ∧ getBits W (combine P h l) P P = h ∧
    setBits W (setBits W 0 l 0 P) h P P = combine P h l

/-- The two byte orders by their formulas, inverse to each other, big the reverse of little, equal for one byte; and the
source's example (R54, which the spec marks as from general knowledge for the formulas, GK1, log entry 13). -/
def Obligations.SerAndDeserAreInverse : Prop :=
  (∀ t m k : Nat, k < m →
    (ser .little t m)[k]? = some (BitVec.ofNat 8 (t / 2 ^ (8 * k) % 256)) ∧
    (ser .big t m)[k]? = some (BitVec.ofNat 8 (t / 2 ^ (8 * (m - 1 - k)) % 256))) ∧
  (∀ (E : ByteOrder) (t m : Nat), (ser E t m).length = m) ∧
  (∀ bytes : List Byte,
    deser .little bytes = ∑ k : Fin bytes.length, bytes[k].toNat * 2 ^ (8 * k.val) ∧
    deser .big bytes = ∑ k : Fin bytes.length, bytes[k].toNat * 2 ^ (8 * (bytes.length - 1 - k.val))) ∧
  (∀ (E : ByteOrder) (t m : Nat), t < 2 ^ (8 * m) → deser E (ser E t m) = t) ∧
  (∀ (E : ByteOrder) (bytes : List Byte), ser E (deser E bytes) bytes.length = bytes) ∧
  (∀ t m : Nat, ser .big t m = (ser .little t m).reverse) ∧
  (∀ t : Nat, ser .big t 1 = ser .little t 1) ∧
  (ser .little 0x12345678 4 = [0x78, 0x56, 0x34, 0x12] ∧ ser .big 0x12345678 4 = [0x12, 0x34, 0x56, 0x78])

/-- R236, which the spec marks as derived from R231, R232 and R54: an RDB right after a WRB through the same window, width and order returns `x[rs]_W mod 2^(8*m)` and the same
T; in the other order, with a long enough window, it returns the byte-swapped value. -/
def Obligations.WriteThenReadReturnsTheValue : Prop :=
  ∀ (fw fr : FormatX) (s : State) (E E' : ByteOrder), SelectsOrder s fw.e E → SelectsOrder s fr.e E' →
    fr.w = fw.w → fr.rt = fw.rt → fr.rl = fw.rl →
    (s.reg fw.rt).toNat + (s.reg fw.rl).toNat ≤ s.bufBytes →
    ∃ t u, exec (.wrb fw) s = .next t ∧ exec (.rdb fr) t = .next u ∧ u.tFlag = t.tFlag ∧
      (E' = E → (u.reg fr.rd).toNat = (s.reg fw.rs).toNat % 2 ^ fw.w.bits % 2 ^ (8 * s.movedBytes fw)) ∧
      (E' ≠ E → fw.w.bits / 8 ≤ (s.reg fw.rl).toNat →
        (u.reg fr.rd).toNat < 2 ^ fw.w.bits ∧
        ∀ k < fw.w.bits / 8,
          (u.reg fr.rd).extractLsb' (8 * k) 8 = (s.reg fw.rs).extractLsb' (8 * (fw.w.bits / 8 - 1 - k)) 8)

/-- R238, which the spec marks as derived from R231, R232 and R237: a command that names no native order has the same effect for both values of NATIVE_ORDER. -/
def Obligations.ExplicitOrderIgnoresNativeOrder : Prop :=
  ∀ (i : Instr) (s t : State) (o : ByteOrder), (∀ f, i.transfer = some f → f.e ≠ .native) → exec i s = .next t →
    exec i { s with nativeOrder := o } = .next { t with nativeOrder := o }

/-- R160, R161 to R163, R169: an index list acts as a set, and a longer collection may be cut into pieces. -/
def Obligations.IndexListsActAsSets : Prop :=
  ∀ (W v : Nat) (I J : List Nat), v < 2 ^ W →
    ((∀ i, i ∈ I ↔ i ∈ J) →
      clearList W v I = clearList W v J ∧ fillList W v I = fillList W v J ∧ isAny W v I = isAny W v J ∧
      areAll W v I = areAll W v J ∧ isNone W v I = isNone W v J) ∧
    (clearList W v (I ++ J) = clearList W (clearList W v I) J ∧
      fillList W v (I ++ J) = fillList W (fillList W v I) J ∧
      isAny W v (I ++ J) = (isAny W v I || isAny W v J) ∧
      areAll W v (I ++ J) = (areAll W v I && areAll W v J) ∧
      isNone W v (I ++ J) = (isNone W v I && isNone W v J))

/-- R195: the low and high forms act on the unit at bit 0 and on the unit at bit U of the container, whatever its
width. -/
def Obligations.HalfFormsReachTheirUnit : Prop :=
  ∀ (u : AccessUnit) (h : Half) (w : Width) (rd rs : Reg) (s : State) (off : Nat), unitBits u < w.bits →
    (off = if h = .low then 0 else unitBits u) →
    (∃ t, exec (expandPseudo (.getHalf h u w rd rs)) s = .next t ∧ OnlyRegWritten rd s t ∧
      ∀ j, (t.reg rd).getLsbD j = (decide (j < unitBits u) && (s.reg rs).getLsbD (off + j))) ∧
    (∃ t, exec (expandPseudo (.setHalf h u w rd rs)) s = .next t ∧ OnlyRegWritten rd s t ∧
      ∀ j, (t.reg rd).getLsbD j =
        if off ≤ j ∧ j < off + unitBits u then (s.reg rs).getLsbD (j - off)
        else decide (j < w.bits) && (s.reg rd).getLsbD j) ∧
    (∃ t, exec (expandPseudo (.clrHalf h u w rd)) s = .next t ∧ OnlyRegWritten rd s t ∧
      ∀ j, (t.reg rd).getLsbD j =
        (decide (j < w.bits) && (s.reg rd).getLsbD j && !decide (off ≤ j ∧ j < off + unitBits u))) ∧
    (∃ t, exec (expandPseudo (.fillHalf h u w rd)) s = .next t ∧ OnlyRegWritten rd s t ∧
      ∀ j, (t.reg rd).getLsbD j =
        (decide (j < w.bits) && ((s.reg rd).getLsbD j || decide (off ≤ j ∧ j < off + unitBits u))))

/-- R99, R222: CMBBYTE, CMBWORD and CMBDWORD concatenate two parts of 8, 16 and 32 bits, and the default-count SETBITS
replaces as many bits as the source's type has. -/
def Obligations.WrappersFixTheirWidths : Prop :=
  (∀ (u : AccessUnit) (rd rs rt : Reg) (s : State),
    ∃ t, exec (expandPseudo (.cmb u rd rs rt)) s = .next t ∧ OnlyRegWritten rd s t ∧
      (t.reg rd).toNat =
        (s.reg rs).toNat % 2 ^ unitBits u * 2 ^ unitBits u + (s.reg rt).toNat % 2 ^ unitBits u) ∧
  (∀ (w v : Width) (rd rs : Reg) (b : Byte) (s : State),
    ∃ t, exec (expandPseudo (.setbitsTyped w rd rs v b)) s = .next t ∧ OnlyRegWritten rd s t ∧
      ∀ j, (t.reg rd).getLsbD j =
        if b.toNat ≤ j ∧ j < b.toNat + v.bits ∧ j < w.bits then (s.reg rs).getLsbD (j - b.toNat)
        else decide (j < w.bits) && (s.reg rd).getLsbD j)

/-! The whole machine -/

/-- R89: a field that a command's rule does not use has no effect: with 0 there the command does the same, but for the
word that an error capture may record. -/
def Obligations.IgnoredFieldsHaveNoEffect : Prop :=
  ∀ (i : Instr) (s : State),
    (i.wellTyped = true → WindowOk i s → exec i.zeroIgnored s = exec i s) ∧
    ∃ t t', exec i s = .next t ∧ exec i.zeroIgnored s = .next t' ∧
      SameRegs t t' ∧ t'.tFlag = t.tFlag ∧ SameBuf t t' ∧ SameSurroundings t t' ∧ t'.err = t.err ∧ t'.ecode = t.ecode

/-- Every step keeps the invariant: the parameters in range, BUF in canonical form and inside its addresses, nothing
recorded while ERR = 0, and while ERR = 1 a recorded word that raises the recorded code. -/
def Obligations.EveryStepKeepsTheInvariant : Prop := ∀ s t : State, s.Inv → step s = .next t → t.Inv

/-- The machine after reset meets the invariant. -/
def Obligations.ResetMeetsTheInvariant : Prop := State.reset.Inv

/-- No step changes NATIVE_ORDER or BUF_BYTES, so CONFIG is constant (R5, R31). -/
def Obligations.ParametersNeverChange : Prop :=
  ∀ s t : State, step s = .next t →
    t.nativeOrder = s.nativeOrder ∧ t.bufBytes = s.bufBytes ∧ t.configWord = s.configWord

/-- R51: among commands only WRB changes a byte of BUF, and only RDB has a result that depends on BUF. -/
def Obligations.OnlyTransfersReachBuf : Prop :=
  (∀ (i : Instr) (s t : State), (∀ f, i ≠ .wrb f) → exec i s = .next t → SameBuf s t) ∧
  (∀ (i : Instr) (s t : State) (m : Memory) (k : Nat), (∀ f, i ≠ .rdb f) → exec i s = .next t →
    ∃ t', exec i { s with buf := m, resets := k } = .next t' ∧
      SameRegs t t' ∧ t'.tFlag = t.tFlag ∧ SameErrors t t' ∧
      ∀ a, t.bufByte a = t'.bufByte a ∨
        (t.bufByte a = s.bufByte a ∧ t'.bufByte a = State.bufByte { s with buf := m, resets := k } a))

/-- R25: no command but the six writes T, a command that raises leaves T unchanged, and no command's result, its value
of T among them, depends on T. -/
def Obligations.OnlySixCommandsTouchTruth : Prop :=
  (∀ (i : Instr) (s t : State), i.writesTruth = false → exec i s = .next t → t.tFlag = s.tFlag) ∧
  (∀ (i : Instr) (s t : State), exec i s = .next t → (i.wellTyped = false ∨ ¬WindowOk i s) → t.tFlag = s.tFlag) ∧
  (∀ (i : Instr) (s t : State) (b : Bool), exec i s = .next t →
    ∃ t', exec i { s with tFlag := b } = .next t' ∧
      SameRegs t t' ∧ SameErrors t t' ∧ SameBuf t t' ∧ SameSurroundings t t' ∧
      (i.writesTruth = true → i.wellTyped = true → WindowOk i s → t'.tFlag = t.tFlag))

/-- R21: a command reads the registers its rule names and no others, writes at most the one named as its destination,
and writes none if it raises. -/
def Obligations.CommandsTouchOnlyNamedRegisters : Prop :=
  (∀ (i : Instr) (s t : State) (r : Reg), exec i s = .next t → i.destination ≠ some r → t.reg r = s.reg r) ∧
  (∀ (i : Instr) (s t : State), exec i s = .next t → (i.wellTyped = false ∨ ¬WindowOk i s) → SameRegs s t) ∧
  (∀ (i : Instr) (s : State) (regs' : Vector Word 8), (∀ r ∈ i.sources, regs'[r] = s.regs[r]) →
    i.wellTyped = true → WindowOk i s →
    ∃ t t', exec i s = .next t ∧ exec i { s with regs := regs' } = .next t' ∧
      (∀ r, i.destination = some r → t'.reg r = t.reg r) ∧
      t'.tFlag = t.tFlag ∧ SameErrors t t' ∧ SameBuf t t')

/-- R23: every result is zero-extended to 64 bits: it lies below `2^W`. A CLRBITS that is a no-op on the container leaves
the container, and leaves the whole register exactly when it was below `2^W`. -/
def Obligations.ResultsAreZeroExtended : Prop :=
  (∀ (i : Instr) (s t : State) (rd : Reg), i.wellTyped = true → WindowOk i s → exec i s = .next t →
    i.destination = some rd → (t.reg rd).toNat < 2 ^ i.width.bits) ∧
  (∀ (f : FormatB) (s : State), f.w.bits ≤ f.b.toNat →
    ∃ t, exec (.clrbits f) s = .next t ∧ (t.reg f.rd).toNat = (s.reg f.rd).toNat % 2 ^ f.w.bits ∧
      (t.reg f.rd = s.reg f.rd ↔ (s.reg f.rd).toNat < 2 ^ f.w.bits))
end

