-- ==== Sys2Proof/Laws/Bits.lean ====
section
/-! SUPPORT. What each pure function does, bit by bit. -/

namespace Sys2Proof.Machine

theorem testBit_ones (n j : Nat) : (ones n).testBit j = decide (j < n) := Nat.testBit_two_pow_sub_one n j

theorem ones_lt (n : Nat) : ones n < 2 ^ n := Nat.sub_lt (Nat.two_pow_pos n) Nat.one_pos

theorem testBit_notN {n a : Nat} (h : a < 2 ^ n) (j : Nat) :
    (notN n a).testBit j = (decide (j < n) && !a.testBit j) := by
  have : notN n a = 2 ^ n - (a + 1) := by unfold notN ones; omega
  rw [this, Nat.testBit_two_pow_sub_succ h]

theorem testBit_of_le {v W j : Nat} (h : v < 2 ^ W) (hj : W ≤ j) : v.testBit j = false :=
  Nat.testBit_lt_two_pow (Nat.lt_of_lt_of_le h (Nat.pow_le_pow_right (by omega) hj))

/-- The bits of the clipped run (40_bitfield_primitives.md R122). -/
theorem testBit_runMask (W b c j : Nat) :
    (runMask W b c).testBit j = decide (b ≤ j ∧ j < b + c ∧ j < W) := by
  unfold runMask
  split
  · have : ¬(b ≤ j ∧ j < b + c ∧ j < W) := by omega
    simp [this]
  · rename_i hb
    obtain ⟨k, hk⟩ : ∃ k, min (b + c) W = b + k := ⟨min (b + c) W - b, by omega⟩
    have : 2 ^ (b + k) - 2 ^ b = ones k <<< b := by
      rw [Nat.shiftLeft_eq, ones, Nat.sub_mul, Nat.one_mul, ← pow_add, Nat.add_comm k b]
    rw [hk, this, Nat.testBit_shiftLeft, testBit_ones, Bool.eq_iff_iff]
    simp only [Bool.and_eq_true, decide_eq_true_eq]
    omega

theorem runMask_lt (W b c : Nat) : runMask W b c < 2 ^ W := by
  unfold runMask
  split
  · exact Nat.two_pow_pos W
  · have h1 : 2 ^ min (b + c) W ≤ 2 ^ W := Nat.pow_le_pow_right (by omega) (by omega)
    have h2 := Nat.two_pow_pos b
    have h3 := Nat.two_pow_pos W
    omega

/-- The bits of an extracted run (R120). -/
theorem testBit_getBits (W v b c j : Nat) :
    (getBits W v b c).testBit j =
      if b ≥ W then false
      else if c ≥ W then v.testBit j
      else decide (j < c) && v.testBit (b + j) := by
  unfold getBits
  split
  · simp
  · split
    · rfl
    · rw [Nat.testBit_mod_two_pow, Nat.testBit_shiftRight]

/-- The bits left by clearing a run (R121). -/
theorem testBit_clearBits {W v : Nat} (hv : v < 2 ^ W) (b c j : Nat) :
    (clearBits W v b c).testBit j =
      (v.testBit j && !decide (b < W ∧ (c ≥ W ∨ (b ≤ j ∧ j < b + c)))) := by
  unfold clearBits
  split
  · have : ¬(b < W) := by omega
    simp [this]
  · split
    · have : b < W ∧ (c ≥ W ∨ (b ≤ j ∧ j < b + c)) := ⟨by omega, .inl (by omega)⟩
      simp [this]
    · rename_i hb hc
      rw [Nat.testBit_and, testBit_notN (Nat.mod_lt _ (Nat.two_pow_pos W)), Nat.testBit_mod_two_pow,
        Nat.testBit_shiftLeft, Nat.testBit_two_pow_sub_one, Bool.eq_iff_iff]
      have hW : v.testBit j = true → j < W := fun h => by
        by_contra hj
        simp [testBit_of_le hv (by omega : W ≤ j)] at h
      simp only [Bool.and_eq_true, Bool.not_eq_true', decide_eq_true_eq, Bool.and_eq_false_iff, decide_eq_false_iff_not]
      constructor
      · rintro ⟨h1, h2, h3⟩
        exact ⟨h1, by omega⟩
      · rintro ⟨h1, h2⟩
        have := hW h1
        exact ⟨h1, this, by omega⟩

/-- The bits left by replacing a run (R123). -/
theorem testBit_setBits {W v : Nat} (hv : v < 2 ^ W) (s b c j : Nat) :
    (setBits W v s b c).testBit j =
      if b ≤ j ∧ j < b + c ∧ j < W then s.testBit (j - b) else v.testBit j := by
  unfold setBits
  split
  · have : ¬(b ≤ j ∧ j < b + c ∧ j < W) := by omega
    simp [this]
  · rename_i hb
    have hW : W ≤ j → v.testBit j = false := testBit_of_le hv
    simp only [Nat.testBit_or, Nat.testBit_and, testBit_notN (runMask_lt W b c), testBit_runMask,
      Nat.testBit_mod_two_pow, Nat.testBit_shiftLeft, testBit_getBits]
    have h0 : ¬(0 ≥ W) := by omega
    simp only [h0, if_false, Nat.zero_add]
    by_cases hj : b ≤ j ∧ j < b + c ∧ j < W
    · have h3 : j - b < W := by omega
      have h4 : j - b < c := by omega
      simp only [hj, h3, h4]
      split <;> simp
    · simp only [hj, decide_false, Bool.not_false, Bool.and_true, if_false]
      by_cases h2 : j < W
      · by_cases h1 : b ≤ j
        · have h3 : ¬(c ≥ W) := by omega
          have h4 : ¬(j - b < c) := by omega
          simp [h2, h3, h4]
        · simp [h1, h2]
      · simp [h2, hW (by omega)]

theorem setBits_lt {W v : Nat} (hv : v < 2 ^ W) (s b c : Nat) : setBits W v s b c < 2 ^ W := by
  apply Nat.lt_pow_two_of_testBit
  intro j hj
  rw [testBit_setBits hv]
  have : ¬(b ≤ j ∧ j < b + c ∧ j < W) := by omega
  simp [this, testBit_of_le hv hj]

/-- The bits left by filling a run (R124). -/
theorem testBit_fillBits {W v : Nat} (hv : v < 2 ^ W) (b c j : Nat) :
    (fillBits W v b c).testBit j = (v.testBit j || decide (b ≤ j ∧ j < b + c ∧ j < W)) := by
  rw [fillBits, testBit_setBits hv, testBit_ones]
  split
  · have : j - b < W := by omega
    simp_all
  · simp_all

theorem isBitSet_eq (W v i : Nat) : isBitSet W v i = (decide (i < W) && v.testBit i) := by
  rw [isBitSet, Nat.testBit_eq_decide_div_mod_eq, Nat.shiftRight_eq_div_pow]

theorem testBit_two_pow_eq (i j : Nat) : (2 ^ i).testBit j = decide (i = j) := Nat.testBit_two_pow

/-- The bits left by setting one bit (R126). -/
theorem testBit_setBit (W v i j : Nat) :
    (setBit W v i).testBit j = (v.testBit j || decide (j = i ∧ j < W)) := by
  unfold setBit
  by_cases hi : i < W
  · simp only [hi, if_true, Nat.testBit_or, testBit_two_pow_eq]
    congr 1
    rw [decide_eq_decide]
    omega
  · have : ¬(j = i ∧ j < W) := by omega
    simp [hi, this]

/-- The bits left by clearing one bit (R127). -/
theorem testBit_clearBit {W v : Nat} (hv : v < 2 ^ W) (i j : Nat) :
    (clearBit W v i).testBit j = (v.testBit j && !decide (j = i)) := by
  unfold clearBit
  by_cases hi : i < W
  · have h2 : 2 ^ i < 2 ^ W := Nat.pow_lt_pow_right (by omega) hi
    simp only [hi, if_true, Nat.testBit_and, testBit_notN h2, testBit_two_pow_eq]
    by_cases hj : j < W
    · simp [hj, eq_comm]
    · simp [testBit_of_le hv (by omega : W ≤ j)]
  · simp only [hi, if_false]
    by_cases hj : j = i
    · subst hj
      simp [testBit_of_le hv (by omega : W ≤ j)]
    · simp [hj]

theorem clearBit_lt {W v : Nat} (hv : v < 2 ^ W) (i : Nat) : clearBit W v i < 2 ^ W := by
  apply Nat.lt_pow_two_of_testBit
  intro j hj
  simp [testBit_clearBit hv, testBit_of_le hv hj]

/-- The bits left by clearing a list (41_bit_lists.md R161). -/
theorem testBit_clearList {W v : Nat} (hv : v < 2 ^ W) (I : List Nat) (j : Nat) :
    (clearList W v I).testBit j = (v.testBit j && !decide (j ∈ I)) := by
  unfold clearList
  induction I generalizing v with
  | nil => simp
  | cons i I ih =>
    rw [List.foldl_cons, ih (clearBit_lt hv i), testBit_clearBit hv]
    simp only [List.mem_cons, Bool.decide_or, Bool.not_or, Bool.and_assoc]

/-- The bits left by filling a list (R162). -/
theorem testBit_fillList (W v : Nat) (I : List Nat) (j : Nat) :
    (fillList W v I).testBit j = (v.testBit j || decide (j ∈ I ∧ j < W)) := by
  unfold fillList
  induction I generalizing v with
  | nil => simp
  | cons i I ih =>
    rw [List.foldl_cons, ih, testBit_setBit, Bool.or_assoc, Bool.eq_iff_iff]
    simp only [Bool.or_eq_true, decide_eq_true_eq, List.mem_cons]
    tauto

/-- The bits of a combination: the low part, then the high part, then nothing (43_combine.md R220). -/
theorem testBit_combine (P h l j : Nat) :
    (combine P h l).testBit j =
      if j < P then l.testBit j else decide (j < 2 * P) && h.testBit (j - P) := by
  unfold combine
  rw [Nat.shiftLeft_eq, Nat.mul_comm, Nat.testBit_two_pow_mul_add _ (Nat.mod_lt _ (Nat.two_pow_pos P))]
  split
  · simp_all [Nat.testBit_mod_two_pow]
  · rw [Nat.testBit_mod_two_pow]
    congr 1
    rw [decide_eq_decide]
    omega

theorem isAny_iff (W v : Nat) (I : List Nat) : isAny W v I = true ↔ ∃ i ∈ I, i < W ∧ v.testBit i = true := by
  simp [isAny, isBitSet_eq]

theorem areAll_iff (W v : Nat) (I : List Nat) : areAll W v I = true ↔ ∀ i ∈ I, i < W ∧ v.testBit i = true := by
  simp [areAll, isBitSet_eq]

theorem isNone_iff (W v : Nat) (I : List Nat) : isNone W v I = true ↔ ¬∃ i ∈ I, i < W ∧ v.testBit i = true := by
  rw [← isAny_iff, isNone]
  simp

end Sys2Proof.Machine
end

