-- ==== Sys2Proof/Laws/State.lean ====
section
/-! SUPPORT. One lemma per field per update of the state, so that no later proof unfolds a record update. -/

namespace Sys2Proof.Machine

theorem State.reg_eq (s : State) (r : Reg) : s.reg r = s.regs[r] := rfl

/-! writeReg -/

@[simp] theorem State.writeReg_tFlag (s : State) (r : Reg) (v : Word) : (s.writeReg r v).tFlag = s.tFlag := rfl

@[simp] theorem State.writeReg_err (s : State) (r : Reg) (v : Word) : (s.writeReg r v).err = s.err := rfl

@[simp] theorem State.writeReg_ecode (s : State) (r : Reg) (v : Word) : (s.writeReg r v).ecode = s.ecode := rfl

@[simp] theorem State.writeReg_ecmd (s : State) (r : Reg) (v : Word) : (s.writeReg r v).ecmd = s.ecmd := rfl

@[simp] theorem State.writeReg_buf (s : State) (r : Reg) (v : Word) : (s.writeReg r v).buf = s.buf := rfl

@[simp] theorem State.writeReg_nativeOrder (s : State) (r : Reg) (v : Word) : (s.writeReg r v).nativeOrder = s.nativeOrder := rfl

@[simp] theorem State.writeReg_bufBytes (s : State) (r : Reg) (v : Word) : (s.writeReg r v).bufBytes = s.bufBytes := rfl

@[simp] theorem State.writeReg_resets (s : State) (r : Reg) (v : Word) : (s.writeReg r v).resets = s.resets := rfl

@[simp] theorem State.writeReg_pending (s : State) (r : Reg) (v : Word) : (s.writeReg r v).pending = s.pending := rfl

@[simp] theorem State.writeReg_answers (s : State) (r : Reg) (v : Word) : (s.writeReg r v).answers = s.answers := rfl

theorem State.writeReg_reg (s : State) (r q : Reg) (v : Word) :
    (s.writeReg r v).reg q = if q = r then v else s.reg q := by
  simp only [State.reg, State.writeReg, Fin.getElem_fin, Vector.getElem_set, Fin.ext_iff, eq_comm (a := r.val)]

@[simp] theorem State.writeReg_reg_same (s : State) (r : Reg) (v : Word) : (s.writeReg r v).reg r = v := by
  simp [State.writeReg_reg]

theorem State.writeReg_reg_other (s : State) {r q : Reg} (v : Word) (h : q ≠ r) :
    (s.writeReg r v).reg q = s.reg q := by
  simp [State.writeReg_reg, h]

@[simp] theorem State.writeReg_bufByte (s : State) (r : Reg) (v : Word) (a : Nat) :
    (s.writeReg r v).bufByte a = s.bufByte a := rfl

theorem State.writeResult_eq (s : State) (r : Reg) (n : Nat) :
    s.writeResult r n = s.writeReg r (BitVec.ofNat 64 n) := rfl

/-! writeTruth -/

@[simp] theorem State.writeTruth_tFlag (s : State) (b : Bool) : (s.writeTruth b).tFlag = b := rfl

@[simp] theorem State.writeTruth_err (s : State) (b : Bool) : (s.writeTruth b).err = s.err := rfl

@[simp] theorem State.writeTruth_ecode (s : State) (b : Bool) : (s.writeTruth b).ecode = s.ecode := rfl

@[simp] theorem State.writeTruth_ecmd (s : State) (b : Bool) : (s.writeTruth b).ecmd = s.ecmd := rfl

@[simp] theorem State.writeTruth_buf (s : State) (b : Bool) : (s.writeTruth b).buf = s.buf := rfl

@[simp] theorem State.writeTruth_nativeOrder (s : State) (b : Bool) : (s.writeTruth b).nativeOrder = s.nativeOrder := rfl

@[simp] theorem State.writeTruth_bufBytes (s : State) (b : Bool) : (s.writeTruth b).bufBytes = s.bufBytes := rfl

@[simp] theorem State.writeTruth_resets (s : State) (b : Bool) : (s.writeTruth b).resets = s.resets := rfl

@[simp] theorem State.writeTruth_pending (s : State) (b : Bool) : (s.writeTruth b).pending = s.pending := rfl

@[simp] theorem State.writeTruth_answers (s : State) (b : Bool) : (s.writeTruth b).answers = s.answers := rfl

@[simp] theorem State.writeTruth_reg (s : State) (b : Bool) (r : Reg) : (s.writeTruth b).reg r = s.reg r := rfl

@[simp] theorem State.writeTruth_bufByte (s : State) (b : Bool) (a : Nat) :
    (s.writeTruth b).bufByte a = s.bufByte a := rfl

/-! memWrite -/

@[simp] theorem State.memWrite_tFlag (s : State) (a : Nat) (bytes : List Byte) : (s.memWrite a bytes).tFlag = s.tFlag := rfl

@[simp] theorem State.memWrite_err (s : State) (a : Nat) (bytes : List Byte) : (s.memWrite a bytes).err = s.err := rfl

@[simp] theorem State.memWrite_ecode (s : State) (a : Nat) (bytes : List Byte) : (s.memWrite a bytes).ecode = s.ecode := rfl

@[simp] theorem State.memWrite_ecmd (s : State) (a : Nat) (bytes : List Byte) : (s.memWrite a bytes).ecmd = s.ecmd := rfl

@[simp] theorem State.memWrite_buf (s : State) (a : Nat) (bytes : List Byte) : (s.memWrite a bytes).buf = Memory.writeBytes s.buf a bytes := rfl

@[simp] theorem State.memWrite_nativeOrder (s : State) (a : Nat) (bytes : List Byte) : (s.memWrite a bytes).nativeOrder = s.nativeOrder := rfl

@[simp] theorem State.memWrite_bufBytes (s : State) (a : Nat) (bytes : List Byte) : (s.memWrite a bytes).bufBytes = s.bufBytes := rfl

@[simp] theorem State.memWrite_resets (s : State) (a : Nat) (bytes : List Byte) : (s.memWrite a bytes).resets = s.resets := rfl

@[simp] theorem State.memWrite_pending (s : State) (a : Nat) (bytes : List Byte) : (s.memWrite a bytes).pending = s.pending := rfl

@[simp] theorem State.memWrite_answers (s : State) (a : Nat) (bytes : List Byte) : (s.memWrite a bytes).answers = s.answers := rfl

@[simp] theorem State.memWrite_reg (s : State) (a : Nat) (bytes : List Byte) (r : Reg) :
    (s.memWrite a bytes).reg r = s.reg r := rfl

/-! clearError -/

@[simp] theorem State.clearError_tFlag (s : State)  : (s.clearError).tFlag = s.tFlag := rfl

@[simp] theorem State.clearError_err (s : State)  : (s.clearError).err = false := rfl

@[simp] theorem State.clearError_ecode (s : State)  : (s.clearError).ecode = 0 := rfl

@[simp] theorem State.clearError_ecmd (s : State)  : (s.clearError).ecmd = 0 := rfl

@[simp] theorem State.clearError_buf (s : State)  : (s.clearError).buf = s.buf := rfl

@[simp] theorem State.clearError_nativeOrder (s : State)  : (s.clearError).nativeOrder = s.nativeOrder := rfl

@[simp] theorem State.clearError_bufBytes (s : State)  : (s.clearError).bufBytes = s.bufBytes := rfl

@[simp] theorem State.clearError_resets (s : State)  : (s.clearError).resets = s.resets := rfl

@[simp] theorem State.clearError_pending (s : State)  : (s.clearError).pending = s.pending := rfl

@[simp] theorem State.clearError_answers (s : State)  : (s.clearError).answers = s.answers := rfl

@[simp] theorem State.clearError_reg (s : State) (r : Reg) : s.clearError.reg r = s.reg r := rfl

@[simp] theorem State.clearError_bufByte (s : State) (a : Nat) : s.clearError.bufByte a = s.bufByte a := rfl

/-! answer -/

@[simp] theorem State.answer_tFlag (s : State) (v : HostAnswer) : (s.answer v).tFlag = s.tFlag := rfl

@[simp] theorem State.answer_err (s : State) (v : HostAnswer) : (s.answer v).err = s.err := rfl

@[simp] theorem State.answer_ecode (s : State) (v : HostAnswer) : (s.answer v).ecode = s.ecode := rfl

@[simp] theorem State.answer_ecmd (s : State) (v : HostAnswer) : (s.answer v).ecmd = s.ecmd := rfl

@[simp] theorem State.answer_buf (s : State) (v : HostAnswer) : (s.answer v).buf = s.buf := rfl

@[simp] theorem State.answer_nativeOrder (s : State) (v : HostAnswer) : (s.answer v).nativeOrder = s.nativeOrder := rfl

@[simp] theorem State.answer_bufBytes (s : State) (v : HostAnswer) : (s.answer v).bufBytes = s.bufBytes := rfl

@[simp] theorem State.answer_resets (s : State) (v : HostAnswer) : (s.answer v).resets = s.resets := rfl

@[simp] theorem State.answer_pending (s : State) (v : HostAnswer) : (s.answer v).pending = s.pending := rfl

@[simp] theorem State.answer_answers (s : State) (v : HostAnswer) : (s.answer v).answers = s.answers ++ [v] := rfl

@[simp] theorem State.answer_reg (s : State) (v : HostAnswer) (r : Reg) : (s.answer v).reg r = s.reg r := rfl

@[simp] theorem State.answer_bufByte (s : State) (v : HostAnswer) (a : Nat) :
    (s.answer v).bufByte a = s.bufByte a := rfl

/-! hostReset -/

@[simp] theorem State.hostReset_tFlag (s : State)  : (s.hostReset).tFlag = false := rfl

@[simp] theorem State.hostReset_err (s : State)  : (s.hostReset).err = false := rfl

@[simp] theorem State.hostReset_ecode (s : State)  : (s.hostReset).ecode = 0 := rfl

@[simp] theorem State.hostReset_ecmd (s : State)  : (s.hostReset).ecmd = 0 := rfl

@[simp] theorem State.hostReset_buf (s : State)  : (s.hostReset).buf = [] := rfl

@[simp] theorem State.hostReset_nativeOrder (s : State)  : (s.hostReset).nativeOrder = s.nativeOrder := rfl

@[simp] theorem State.hostReset_bufBytes (s : State)  : (s.hostReset).bufBytes = s.bufBytes := rfl

@[simp] theorem State.hostReset_resets (s : State)  : (s.hostReset).resets = s.resets + 1 := rfl

@[simp] theorem State.hostReset_pending (s : State)  : (s.hostReset).pending = s.pending := rfl

@[simp] theorem State.hostReset_answers (s : State)  : (s.hostReset).answers = s.answers := rfl

@[simp] theorem State.hostReset_reg (s : State) (r : Reg) : s.hostReset.reg r = 0 := by
  simp [State.reg, State.hostReset, State.reset]

/-! captureError, whose effect depends on `ERR` -/

@[simp] theorem State.captureError_tFlag (s : State) (code : ErrorCode) (cmd : CmdWord) :
    (s.captureError code cmd).tFlag = s.tFlag := by
  unfold State.captureError; split <;> rfl

@[simp] theorem State.captureError_buf (s : State) (code : ErrorCode) (cmd : CmdWord) :
    (s.captureError code cmd).buf = s.buf := by
  unfold State.captureError; split <;> rfl

@[simp] theorem State.captureError_nativeOrder (s : State) (code : ErrorCode) (cmd : CmdWord) :
    (s.captureError code cmd).nativeOrder = s.nativeOrder := by
  unfold State.captureError; split <;> rfl

@[simp] theorem State.captureError_bufBytes (s : State) (code : ErrorCode) (cmd : CmdWord) :
    (s.captureError code cmd).bufBytes = s.bufBytes := by
  unfold State.captureError; split <;> rfl

@[simp] theorem State.captureError_resets (s : State) (code : ErrorCode) (cmd : CmdWord) :
    (s.captureError code cmd).resets = s.resets := by
  unfold State.captureError; split <;> rfl

@[simp] theorem State.captureError_pending (s : State) (code : ErrorCode) (cmd : CmdWord) :
    (s.captureError code cmd).pending = s.pending := by
  unfold State.captureError; split <;> rfl

@[simp] theorem State.captureError_answers (s : State) (code : ErrorCode) (cmd : CmdWord) :
    (s.captureError code cmd).answers = s.answers := by
  unfold State.captureError; split <;> rfl

@[simp] theorem State.captureError_err (s : State) (code : ErrorCode) (cmd : CmdWord) :
    (s.captureError code cmd).err = true := by
  unfold State.captureError; split
  · assumption
  · rfl

@[simp] theorem State.captureError_ecode (s : State) (code : ErrorCode) (cmd : CmdWord) :
    (s.captureError code cmd).ecode = if s.err then s.ecode else code.number := by
  unfold State.captureError; split <;> rfl

@[simp] theorem State.captureError_ecmd (s : State) (code : ErrorCode) (cmd : CmdWord) :
    (s.captureError code cmd).ecmd = if s.err then s.ecmd else cmd := by
  unfold State.captureError; split <;> rfl

@[simp] theorem State.captureError_reg (s : State) (code : ErrorCode) (cmd : CmdWord) (r : Reg) :
    (s.captureError code cmd).reg r = s.reg r := by
  unfold State.captureError; split <;> rfl

@[simp] theorem State.captureError_bufByte (s : State) (code : ErrorCode) (cmd : CmdWord) (a : Nat) :
    (s.captureError code cmd).bufByte a = s.bufByte a := by
  unfold State.captureError; split <;> rfl

end Sys2Proof.Machine
end

