-- ==== Sys2Proof/Laws/Memory.lean ====
section
/-! SUPPORT. The laws of `BUF`: read after write, writes elsewhere, and the canonical form that every memory operation
keeps. -/

namespace Sys2Proof.Machine

theorem Memory.find_write (m : Memory) (a b : Nat) (v : Byte) :
    Memory.find (Memory.write m a v) b = if b = a then some v else Memory.find m b := by
  induction m with
  | nil => simp [Memory.write, Memory.find]
  | cons c m ih =>
    obtain ⟨a', v'⟩ := c
    simp only [Memory.write]
    split
    · simp [Memory.find]
    · split
      · subst_vars
        simp only [Memory.find]
        split <;> simp_all
      · simp only [Memory.find, ih]
        split <;> split <;> simp_all

/-- Storing bytes at `addr` changes exactly the addresses `addr .. addr + length - 1`, each to its byte. -/
theorem Memory.find_writeBytes (vs : List Byte) (m : Memory) (addr b : Nat) :
    Memory.find (Memory.writeBytes m addr vs) b =
      if addr ≤ b ∧ b < addr + vs.length then vs[b - addr]? else Memory.find m b := by
  induction vs generalizing m addr with
  | nil =>
    have : ¬(addr ≤ b ∧ b < addr) := by omega
    simp [Memory.writeBytes, this]
  | cons v vs ih =>
    rw [Memory.writeBytes, ih, Memory.find_write]
    simp only [List.length_cons]
    by_cases hb : b = addr
    · subst hb
      have h2 : b ≤ b ∧ b < b + (vs.length + 1) := by omega
      simp [h2]
    · by_cases hr : addr + 1 ≤ b ∧ b < addr + 1 + vs.length
      · have h2 : addr ≤ b ∧ b < addr + (vs.length + 1) := by omega
        obtain ⟨k, rfl⟩ : ∃ k, b = addr + 1 + k := ⟨b - (addr + 1), by omega⟩
        have h3 : addr + 1 + k - addr = k + 1 := by omega
        have h4 : addr + 1 + k - (addr + 1) = k := by omega
        simp only [hr, h2, h3, h4, and_self, if_true, List.getElem?_cons_succ]
      · have h2 : ¬(addr ≤ b ∧ b < addr + (vs.length + 1)) := by omega
        simp only [hr, h2, hb, if_false]

/-- `BUF[b]` after `MemWrite(addr, n, bytes)` (20_memory.md R53): the stored byte inside, as before outside. -/
theorem State.memWrite_bufByte (s : State) (addr b : Nat) (vs : List Byte) :
    (s.memWrite addr vs).bufByte b =
      if h : addr ≤ b ∧ b < addr + vs.length then vs[b - addr]'(by omega) else s.bufByte b := by
  simp only [State.bufByte, State.memWrite_buf, State.memWrite_resets, Memory.find_writeBytes]
  by_cases h : addr ≤ b ∧ b < addr + vs.length
  · have hk : b - addr < vs.length := by omega
    simp [h, hk]
  · simp [h]

theorem Memory.mem_write {m : Memory} {a : Nat} {v : Byte} {c : Host.Cell} (h : c ∈ Memory.write m a v) :
    c = (a, v) ∨ c ∈ m := by
  induction m with
  | nil => simpa [Memory.write] using h
  | cons d m ih =>
    simp only [Memory.write] at h
    split at h
    · simpa using h
    · split at h
      · simp only [List.mem_cons] at h ⊢; tauto
      · simp only [List.mem_cons] at h ⊢
        rcases h with h | h
        · tauto
        · rcases ih h with h | h <;> tauto

/-- A write keeps the canonical form. -/
theorem Memory.write_wf {m : Memory} (a : Nat) (v : Byte) (h : Memory.wf m) : Memory.wf (Memory.write m a v) := by
  induction m with
  | nil => simp [Memory.wf, Memory.write]
  | cons c m ih =>
    obtain ⟨a', v'⟩ := c
    simp only [Memory.wf, List.pairwise_cons] at h
    simp only [Memory.write]
    split
    · rename_i hlt
      simp only [Memory.wf, List.pairwise_cons, List.mem_cons]
      refine ⟨?_, h.1, h.2⟩
      rintro d (rfl | hd)
      · exact hlt
      · exact Nat.lt_trans hlt (h.1 d hd)
    · split
      · subst_vars
        exact List.pairwise_cons.2 h
      · refine List.pairwise_cons.2 ⟨fun d hd => ?_, ih h.2⟩
        rcases Memory.mem_write hd with rfl | hd
        · show a' < a; omega
        · exact h.1 d hd

/-- In canonical form every address below the first listed one is unlisted. -/
theorem Memory.find_none_of_lt {m : Memory} {a : Nat} (h : ∀ c ∈ m, a < c.1) : Memory.find m a = none := by
  induction m with
  | nil => rfl
  | cons c m ih =>
    have hc : a < c.1 := h c (by simp)
    simp [Memory.find, Nat.ne_of_lt hc, ih (fun d hd => h d (by simp [hd]))]

/-- The form is canonical: memories with the same contents are the same list. -/
theorem Memory.ext_of_wf {m n : Memory} (hm : Memory.wf m) (hn : Memory.wf n)
    (h : ∀ a, Memory.find m a = Memory.find n a) : m = n := by
  induction m generalizing n with
  | nil =>
    cases n with
    | nil => rfl
    | cons d n => simpa [Memory.find] using h d.1
  | cons c m ih =>
    cases n with
    | nil => simpa [Memory.find] using h c.1
    | cons d n =>
      obtain ⟨ca, cv⟩ := c
      obtain ⟨da, dv⟩ := d
      simp only [Memory.wf, List.pairwise_cons] at hm hn
      have hcd : ca = da := by
        rcases Nat.lt_trichotomy ca da with hlt | heq | hgt
        · have := h ca
          rw [Memory.find_none_of_lt (m := (da, dv) :: n)] at this
          · simp [Memory.find] at this
          · intro x hx
            rcases List.mem_cons.1 hx with rfl | hx
            · exact hlt
            · exact Nat.lt_trans hlt (hn.1 x hx)
        · exact heq
        · have := h da
          rw [Memory.find_none_of_lt (m := (ca, cv) :: m)] at this
          · simp [Memory.find] at this
          · intro x hx
            rcases List.mem_cons.1 hx with rfl | hx
            · exact hgt
            · exact Nat.lt_trans hgt (hm.1 x hx)
      subst hcd
      have hv : cv = dv := by simpa [Memory.find] using h ca
      subst hv
      congr 1
      refine ih hm.2 hn.2 fun a => ?_
      have ha := h a
      simp only [Memory.find] at ha
      split at ha
      · subst_vars
        rw [Memory.find_none_of_lt hm.1, Memory.find_none_of_lt hn.1]
      · exact ha

/-- Storing bytes keeps the canonical form. -/
theorem Memory.writeBytes_wf (vs : List Byte) {m : Memory} (addr : Nat) (h : Memory.wf m) :
    Memory.wf (Memory.writeBytes m addr vs) := by
  induction vs generalizing m addr with
  | nil => exact h
  | cons v vs ih => exact ih _ (Memory.write_wf addr v h)

/-- Bytes stored below a bound keep every listed address below it. -/
theorem Memory.writeBytes_inside (vs : List Byte) {m : Memory} {addr n : Nat} (h : ∀ c ∈ m, c.1 < n)
    (hn : addr + vs.length ≤ n) : ∀ c ∈ Memory.writeBytes m addr vs, c.1 < n := by
  induction vs generalizing m addr with
  | nil => exact h
  | cons v vs ih =>
    simp only [List.length_cons] at hn
    refine ih (fun c hc => ?_) (by omega)
    rcases Memory.mem_write hc with rfl | hc
    · show addr < n; omega
    · exact h c hc

/-- The memory of the machine after reset has the canonical form. -/
theorem State.reset_buf_wf : Memory.wf State.reset.buf := List.Pairwise.nil

end Sys2Proof.Machine
end

