-- ==== Sys2Proof/Laws/Operands.lean ====
section
/-! SUPPORT. What each operand form and each byte sequence holds. -/

namespace Sys2Proof.Machine

/-- A typed read is a value of its width (10_state.md R22). -/
theorem State.container_lt (s : State) (r : Reg) (width : Nat) : s.container r width < 2 ^ width :=
  Nat.mod_lt _ (Nat.two_pow_pos width)

/-- A typed read sees the low bits of the register and no others (10_state.md R22). -/
theorem State.testBit_container (s : State) (r : Reg) (width j : Nat) :
    (s.container r width).testBit j = (decide (j < width) && (s.reg r).getLsbD j) := by
  rw [State.container, Nat.testBit_mod_two_pow, BitVec.testBit_toNat]

theorem State.testBit_fullReg (s : State) (r : Reg) (j : Nat) :
    (s.fullReg r).testBit j = (s.reg r).getLsbD j := BitVec.testBit_toNat _

/-- The register after a result is written holds the result's bits (10_state.md R23). -/
theorem State.getLsbD_writeResult (s : State) (r : Reg) (n j : Nat) :
    ((s.writeResult r n).reg r).getLsbD j = (decide (j < 64) && n.testBit j) := by
  rw [State.writeResult_eq, State.writeReg_reg_same, BitVec.getLsbD_ofNat]

/-- Index `k` of a list operand is byte `k` of the register (41_bit_lists.md R160). -/
theorem mem_indexList (x n i : Nat) : i ∈ indexList x n ↔ ∃ k < n, (x >>> (8 * k)) % 256 = i := by
  simp [indexList]

@[simp] theorem length_ser (E : ByteOrder) (t m : Nat) : (ser E t m).length = m := by simp [ser]

theorem getElem_ser_little (t m k : Nat) (h : k < m) :
    (ser .little t m)[k]'(by simpa using h) = BitVec.ofNat 8 (t >>> (8 * k)) := by simp [ser]

theorem getElem_ser_big (t m k : Nat) (h : k < m) :
    (ser .big t m)[k]'(by simpa using h) = BitVec.ofNat 8 (t >>> (8 * (m - 1 - k))) := by simp [ser]

/-- Big order is little order reversed (20_memory.md R54). -/
theorem ser_big_eq_reverse (t m : Nat) : ser .big t m = (ser .little t m).reverse := by
  apply List.ext_getElem (by simp)
  intro k h1 h2
  simp only [length_ser] at h1
  simp [ser]

theorem deserLittle_lt (bytes : List Byte) : deserLittle bytes < 2 ^ (8 * bytes.length) := by
  induction bytes with
  | nil => simp [deserLittle]
  | cons v vs ih =>
    have h1 := v.isLt
    have h2 : 2 ^ (8 * (vs.length + 1)) = 256 * 2 ^ (8 * vs.length) := by
      rw [Nat.mul_add, pow_add, Nat.mul_comm]; norm_num
    simp only [deserLittle, List.length_cons, h2]
    omega

/-- Bit `j` of the number a byte sequence spells in little order is bit `j % 8` of its byte `j / 8`. -/
theorem testBit_deserLittle (bytes : List Byte) (j : Nat) :
    (deserLittle bytes).testBit j = (bytes.getD (j / 8) 0).getLsbD (j % 8) := by
  induction bytes generalizing j with
  | nil => simp [deserLittle]
  | cons v vs ih =>
    have h1 := v.isLt
    rw [deserLittle, Nat.add_comm, show (256 : Nat) = 2 ^ 8 by norm_num, Nat.testBit_two_pow_mul_add _ h1]
    split
    · rename_i hj
      rw [Nat.div_eq_of_lt hj, Nat.mod_eq_of_lt hj, BitVec.testBit_toNat]
      simp
    · rename_i hj
      obtain ⟨k, rfl⟩ : ∃ k, j = k + 8 := ⟨j - 8, by omega⟩
      rw [show k + 8 - 8 = k by omega, ih, show (k + 8) / 8 = k / 8 + 1 by omega, show (k + 8) % 8 = k % 8 by omega]
      simp

@[simp] theorem State.length_memRead (s : State) (addr n : Nat) : (s.memRead addr n).length = n := by
  simp [State.memRead]

/-- Byte `k` of a read is the byte at `addr + k` (20_memory.md R52). -/
theorem State.getElem_memRead (s : State) (addr n k : Nat) (h : k < n) :
    (s.memRead addr n)[k]'(by simpa using h) = s.bufByte (addr + k) := by
  simp [State.memRead]

@[simp] theorem length_bytesToWrite (val m : Nat) (E : ByteOrder) : (bytesToWrite val m E).length = m := by
  simp [bytesToWrite]

/-- `Order(e)` has a value exactly for the codes that name an order (20_memory.md R55). -/
theorem State.order_eq_none (s : State) (e : Endian) : s.order e = none ↔ e = .reserved := by
  cases e <;> simp [State.order]

/-- The window check, as the spec states it (20_memory.md R66). -/
theorem State.windowFits_iff (s : State) (f : FormatX) :
    s.windowFits f = true ↔ (s.reg f.rt).toNat + (s.reg f.rl).toNat ≤ s.bufBytes := by
  exact decide_eq_true_iff

end Sys2Proof.Machine
end

