-- ==== Sys2Proof/Laws/Ops.lean ====
section
/-! SUPPORT. Everything each shared operation can do, said once. -/

namespace Sys2Proof.Machine

theorem SameErrors.refl (s : State) : SameErrors s s := ⟨rfl, rfl, rfl⟩

theorem SameSurroundings.refl (s : State) : SameSurroundings s s := ⟨rfl, rfl, rfl, rfl, rfl⟩

/-- Error capture changes the error registers only, and those only if `ERR` was 0 (60_exceptions.md R262). -/
theorem State.captureError_only (s : State) (code : ErrorCode) (cmd : CmdWord) :
    OnlyErrorCaptured code cmd s (s.captureError code cmd) := by
  refine ⟨fun r => by simp, by simp, fun a => by simp, ⟨by simp, by simp, by simp, by simp, by simp⟩, ?_, ?_⟩
  · intro h
    exact ⟨by simp [h], by simp [h], by simp [h]⟩
  · intro h
    exact ⟨by simp, by simp [h], by simp [h]⟩

/-- A raising command ends in exactly its error capture (60_exceptions.md R262). -/
theorem raiseIllegal_next (code : ErrorCode) (i : Instr) (s : State) :
    ∃ t, raiseIllegal code i s = .next t ∧ OnlyErrorCaptured code (encode i) s t :=
  ⟨_, rfl, s.captureError_only code (encode i)⟩

/-- A result write changes its register only (10_state.md R21, R23). -/
theorem State.writeResult_only (s : State) (r : Reg) (n : Nat) : OnlyRegWritten r s (s.writeResult r n) :=
  ⟨fun _ h => s.writeReg_reg_other _ h, rfl, SameErrors.refl s, fun _ => rfl, SameSurroundings.refl s⟩

/-- Writing `T` changes nothing else (10_state.md R25). -/
theorem State.writeTruth_only (s : State) (b : Bool) : OnlyTruthWritten s (s.writeTruth b) :=
  ⟨fun _ => rfl, SameErrors.refl s, fun _ => rfl, SameSurroundings.refl s⟩

/-- `MemWrite` changes no register, no flag and no error register (20_memory.md R53). -/
theorem State.memWrite_rest (s : State) (a : Nat) (bytes : List Byte) :
    SameRegs s (s.memWrite a bytes) ∧ (s.memWrite a bytes).tFlag = s.tFlag ∧
      SameErrors s (s.memWrite a bytes) ∧ SameSurroundings s (s.memWrite a bytes) :=
  ⟨fun _ => rfl, rfl, SameErrors.refl s, SameSurroundings.refl s⟩

/-- Clearing the error changes the error registers only, to 0 (60_exceptions.md R264). -/
theorem State.clearError_only (s : State) :
    SameRegs s s.clearError ∧ s.clearError.tFlag = s.tFlag ∧ SameBuf s s.clearError ∧
      SameSurroundings s s.clearError ∧
      s.clearError.err = false ∧ s.clearError.ecode = 0 ∧ s.clearError.ecmd = 0 :=
  ⟨fun _ => rfl, rfl, fun _ => rfl, SameSurroundings.refl s, rfl, rfl, rfl⟩

end Sys2Proof.Machine
end

