-- ==== Sys2Proof/Laws/PerInstr.lean ====
section
/-! SUPPORT. Statements for all commands, one lemma per constructor of `Instr`. -/

namespace Sys2Proof.Laws

/-- Bits 31:24 of the word of a command are the opcode its row of the table has as match under the mask
`0xFF000000` (30_encoding.md R89, R90). -/
def OpcodeField.Statement (i : Instr) : Prop := opField (encode i) = i.opcode

theorem opField_encodeB (op : Byte) (f : FormatB) : opField (encodeB op f) = op := by
  apply BitVec.eq_of_getLsbD_eq
  intro k hk
  simp only [opField, encodeB, BitVec.getLsbD_extractLsb', hk, decide_true, Bool.true_and, BitVec.getLsbD_append]
  repeat' (split; omega)
  congr 1
  omega

theorem opField_encodeC (op : Byte) (f : FormatC) : opField (encodeC op f) = op := by
  apply BitVec.eq_of_getLsbD_eq
  intro k hk
  simp only [opField, encodeC, BitVec.getLsbD_extractLsb', hk, decide_true, Bool.true_and, BitVec.getLsbD_append]
  repeat' (split; omega)
  congr 1
  omega

theorem opField_encodeX (op : Byte) (f : FormatX) : opField (encodeX op f) = op := by
  apply BitVec.eq_of_getLsbD_eq
  intro k hk
  simp only [opField, encodeX, BitVec.getLsbD_extractLsb', hk, decide_true, Bool.true_and, BitVec.getLsbD_append]
  repeat' (split; omega)
  congr 1
  omega

theorem OpcodeField.getbits (f : FormatB) : OpcodeField.Statement (.getbits f) := opField_encodeB _ f

theorem OpcodeField.clrbits (f : FormatB) : OpcodeField.Statement (.clrbits f) := opField_encodeB _ f

theorem OpcodeField.setbits (f : FormatB) : OpcodeField.Statement (.setbits f) := opField_encodeB _ f

theorem OpcodeField.fillbits (f : FormatB) : OpcodeField.Statement (.fillbits f) := opField_encodeB _ f

theorem OpcodeField.isbitset (f : FormatB) : OpcodeField.Statement (.isbitset f) := opField_encodeB _ f

theorem OpcodeField.setbit (f : FormatB) : OpcodeField.Statement (.setbit f) := opField_encodeB _ f

theorem OpcodeField.clrbit (f : FormatB) : OpcodeField.Statement (.clrbit f) := opField_encodeB _ f

theorem OpcodeField.clrbitsl (f : FormatB) : OpcodeField.Statement (.clrbitsl f) := opField_encodeB _ f

theorem OpcodeField.fillbitsl (f : FormatB) : OpcodeField.Statement (.fillbitsl f) := opField_encodeB _ f

theorem OpcodeField.isany (f : FormatB) : OpcodeField.Statement (.isany f) := opField_encodeB _ f

theorem OpcodeField.areall (f : FormatB) : OpcodeField.Statement (.areall f) := opField_encodeB _ f

theorem OpcodeField.isnone (f : FormatB) : OpcodeField.Statement (.isnone f) := opField_encodeB _ f

theorem OpcodeField.getbyte (f : FormatB) : OpcodeField.Statement (.getbyte f) := opField_encodeB _ f

theorem OpcodeField.setbyte (f : FormatB) : OpcodeField.Statement (.setbyte f) := opField_encodeB _ f

theorem OpcodeField.clrbyte (f : FormatB) : OpcodeField.Statement (.clrbyte f) := opField_encodeB _ f

theorem OpcodeField.fillbyte (f : FormatB) : OpcodeField.Statement (.fillbyte f) := opField_encodeB _ f

theorem OpcodeField.getword (f : FormatB) : OpcodeField.Statement (.getword f) := opField_encodeB _ f

theorem OpcodeField.setword (f : FormatB) : OpcodeField.Statement (.setword f) := opField_encodeB _ f

theorem OpcodeField.clrword (f : FormatB) : OpcodeField.Statement (.clrword f) := opField_encodeB _ f

theorem OpcodeField.fillword (f : FormatB) : OpcodeField.Statement (.fillword f) := opField_encodeB _ f

theorem OpcodeField.getdword (f : FormatB) : OpcodeField.Statement (.getdword f) := opField_encodeB _ f

theorem OpcodeField.setdword (f : FormatB) : OpcodeField.Statement (.setdword f) := opField_encodeB _ f

theorem OpcodeField.clrdword (f : FormatB) : OpcodeField.Statement (.clrdword f) := opField_encodeB _ f

theorem OpcodeField.filldword (f : FormatB) : OpcodeField.Statement (.filldword f) := opField_encodeB _ f

theorem OpcodeField.combine (f : FormatC) : OpcodeField.Statement (.combine f) := opField_encodeC _ f

theorem OpcodeField.wrb (f : FormatX) : OpcodeField.Statement (.wrb f) := opField_encodeX _ f

theorem OpcodeField.rdb (f : FormatX) : OpcodeField.Statement (.rdb f) := opField_encodeX _ f

end Sys2Proof.Laws
end

