-- ==== Sys2Proof/Tests/Slice0.lean ====
section
/-! SUPPORT. Tests. Expected values are those of spec/95_test_vectors.md (the section is named beside each group), so they
come from outside the model. First the encodings and well-typedness, then single steps, then one witness of the
hypotheses of each statement that has some. -/

namespace Sys2Proof.Tests

open Sys2Proof.Machine Sys2Proof.Claims

/-! A word of every command (95_test_vectors.md, section 2; 30_encoding.md R82 to R84, R97), and reserved words. -/

/-- 30_encoding.md R97: `GETBITS.32 r2, r1, #4, #8`, field by field (R82): op, w, rd, rs, b, c. -/
theorem test_getbits_word_bit_by_bit :
    decode 0b00010000_10_010_001_00000100_00001000 = .ok (.getbits ⟨.w32, 2, 1, 4, 8⟩) := by decide

/-- `COMBINE.16.8 r3, r1, r2` field by field (R83): op, w, rd, rs, p, ignored, rt, ignored. -/
theorem test_combine_word_bit_by_bit :
    decode 0b00110000_01_011_001_00_111_010_11111111 = .ok (.combine ⟨.w16, 3, 1, .w8, 7, 2, 255⟩) := by decide

/-- `WRB.32.be r1, [r2], r3` field by field (R84): op, w, rd, rs, e, ignored, rt, ignored, rl. -/
theorem test_wrb_word_bit_by_bit :
    decode 0b01000000_10_101_001_10_101_010_10001_011 = .ok (.wrb ⟨.w32, 5, 1, .big, 5, 2, 17, 3⟩) := by decide

theorem test_getbits_word : decode 0x10D10830 = .ok (.getbits ⟨.w64, 2, 1, 8, 48⟩) := by decide
theorem test_clrbits_word : decode 0x118F0408 = .ok (.clrbits ⟨.w32, 1, 7, 4, 8⟩) := by decide
theorem test_setbits_word : decode 0x128A1C08 = .ok (.setbits ⟨.w32, 1, 2, 28, 8⟩) := by decide
theorem test_fillbits_word : decode 0x130800FF = .ok (.fillbits ⟨.w8, 1, 0, 0, 255⟩) := by decide
theorem test_isbitset_word : decode 0x14481000 = .ok (.isbitset ⟨.w16, 1, 0, 16, 0⟩) := by decide
theorem test_setbit_word : decode 0x1588C800 = .ok (.setbit ⟨.w32, 1, 0, 200, 0⟩) := by decide
theorem test_clrbit_word : decode 0x16080800 = .ok (.clrbit ⟨.w8, 1, 0, 8, 0⟩) := by decide
theorem test_clrbitsl_word : decode 0x18810008 = .ok (.clrbitsl ⟨.w32, 0, 1, 0, 8⟩) := by decide
theorem test_fillbitsl_word : decode 0x1981AA04 = .ok (.fillbitsl ⟨.w32, 0, 1, 170, 4⟩) := by decide
theorem test_isany_word : decode 0x1A810002 = .ok (.isany ⟨.w32, 0, 1, 0, 2⟩) := by decide
theorem test_areall_word : decode 0x1B810004 = .ok (.areall ⟨.w32, 0, 1, 0, 4⟩) := by decide
theorem test_isnone_word : decode 0x1C010002 = .ok (.isnone ⟨.w8, 0, 1, 0, 2⟩) := by decide
theorem test_getbyte_word : decode 0x2091047B = .ok (.getbyte ⟨.w32, 2, 1, 4, 123⟩) := by decide
theorem test_setbyte_word : decode 0x218A1000 = .ok (.setbyte ⟨.w32, 1, 2, 16, 0⟩) := by decide
theorem test_clrbyte_word : decode 0x22C83C00 = .ok (.clrbyte ⟨.w64, 1, 0, 60, 0⟩) := by decide
theorem test_fillbyte_word : decode 0x23480C00 = .ok (.fillbyte ⟨.w16, 1, 0, 12, 0⟩) := by decide
theorem test_getword_word : decode 0x24D13000 = .ok (.getword ⟨.w64, 2, 1, 48, 0⟩) := by decide
theorem test_setword_word : decode 0x25CA3000 = .ok (.setword ⟨.w64, 1, 2, 48, 0⟩) := by decide
theorem test_clrword_word : decode 0x26880000 = .ok (.clrword ⟨.w32, 1, 0, 0, 0⟩) := by decide
theorem test_fillword_word : decode 0x27881000 = .ok (.fillword ⟨.w32, 1, 0, 16, 0⟩) := by decide
theorem test_getdword_word : decode 0x28D12000 = .ok (.getdword ⟨.w64, 2, 1, 32, 0⟩) := by decide
theorem test_setdword_word : decode 0x29CA2000 = .ok (.setdword ⟨.w64, 1, 2, 32, 0⟩) := by decide
theorem test_clrdword_word : decode 0x2AC80000 = .ok (.clrdword ⟨.w64, 1, 0, 0, 0⟩) := by decide
theorem test_filldword_word : decode 0x2BC82000 = .ok (.filldword ⟨.w64, 1, 0, 32, 0⟩) := by decide
theorem test_combine_word : decode 0x30D98200 = .ok (.combine ⟨.w64, 3, 1, .w32, 0, 2, 0⟩) := by decide
theorem test_wrb_word : decode 0x4081C203 = .ok (.wrb ⟨.w32, 0, 1, .reserved, 0, 2, 0, 3⟩) := by decide
theorem test_rdb_word : decode 0x41A04203 = .ok (.rdb ⟨.w32, 4, 0, .little, 0, 2, 0, 3⟩) := by decide

/-- Reserved words of 95_test_vectors.md section 2.11 are refused by name. -/
theorem test_reserved_words_refused :
    decode 0x00000000 = .error (.reservedOpcode 0x00) ∧ decode 0xFFFFFFFF = .error (.reservedOpcode 0xFF) ∧
    decode 0x17880000 = .error (.reservedOpcode 0x17) ∧ decode 0x1D810002 = .error (.reservedOpcode 0x1D) ∧
    decode 0x2C910000 = .error (.reservedOpcode 0x2C) ∧ decode 0x31590200 = .error (.reservedOpcode 0x31) ∧
    decode 0x42818203 = .error (.reservedOpcode 0x42) ∧ decode 0x0F1100FF = .error (.reservedOpcode 0x0F) := by decide

/-- The assembler's words (section 1): ignored fields 0, an ill-typed command refused. -/
theorem test_assemble :
    assemble (.clrbits ⟨.w32, 1, 7, 4, 8⟩) = some 0x11880408 ∧
    assemble (.combine ⟨.w16, 3, 1, .w8, 7, 2, 255⟩) = some 0x30590200 ∧
    assemble (.getdword ⟨.w32, 3, 0, 0, 0⟩) = none := by decide

/-- The assembler's texts (section 1). -/
theorem test_spelling :
    spelling (.getbits ⟨.w32, 2, 1, 4, 8⟩) = "GETBITS.32 r2, r1, #4, #8" ∧
    spelling (.combine ⟨.w16, 3, 1, .w8, 0, 2, 0⟩) = "COMBINE.16.8 r3, r1, r2" ∧
    spelling (.wrb ⟨.w32, 0, 1, .big, 0, 2, 0, 3⟩) = "WRB.32.be r1, [r2], r3" ∧
    spelling (.rdb ⟨.w64, 6, 0, .native, 0, 2, 0, 3⟩) = "RDB.64 r6, [r2], r3" := by decide

/-- Pseudo-commands stand for the words section 3 gives beside them. -/
theorem test_pseudo_words :
    assemble (expandPseudo (.getHalf .low .word .w32 4 1)) = some 0x24A10000 ∧
    assemble (expandPseudo (.getHalf .high .word .w32 5 4)) = some 0x24AC1000 ∧
    assemble (expandPseudo (.cmb .word 0 1 2)) = some 0x30814200 := by decide

/-! Well-typedness: each check refuses an ill-formed term and accepts its neighbour (30_encoding.md R92, R93). -/

theorem test_narrow_byte_container_ill_typed :
    (Instr.getbyte ⟨.w8, 2, 1, 0, 0⟩).wellTyped = false ∧ (Instr.getbyte ⟨.w16, 2, 1, 0, 0⟩).wellTyped = true := by decide

theorem test_narrow_word_container_ill_typed :
    (Instr.fillword ⟨.w16, 1, 0, 0, 0⟩).wellTyped = false ∧ (Instr.fillword ⟨.w32, 1, 0, 0, 0⟩).wellTyped = true := by decide

theorem test_narrow_dword_container_ill_typed :
    (Instr.setdword ⟨.w32, 1, 2, 0, 0⟩).wellTyped = false ∧ (Instr.setdword ⟨.w64, 1, 2, 0, 0⟩).wellTyped = true := by decide

theorem test_long_list_ill_typed :
    (Instr.isany ⟨.w32, 0, 1, 0, 9⟩).wellTyped = false ∧ (Instr.isany ⟨.w32, 0, 1, 0, 8⟩).wellTyped = true := by decide

theorem test_narrow_combination_ill_typed :
    (Instr.combine ⟨.w64, 3, 1, .w64, 0, 2, 0⟩).wellTyped = false ∧
    (Instr.combine ⟨.w64, 3, 1, .w32, 0, 2, 0⟩).wellTyped = true := by decide

theorem test_reserved_order_ill_typed :
    (Instr.wrb ⟨.w32, 0, 1, .reserved, 0, 2, 0, 3⟩).wellTyped = false ∧
    (Instr.rdb ⟨.w32, 4, 0, .native, 0, 2, 0, 3⟩).wellTyped = true := by decide

/-! Single steps (95_test_vectors.md, section 2). -/

/-- A unit with `BUF_BYTES = 256`, `NATIVE_ORDER = little`, the given `r0` to `r3`, and `r4 = 0x5555`. -/
def unit (r0 r1 r2 r3 : Word) : State :=
  { regs := #v[r0, r1, r2, r3, 0x5555, 0, 0, 0], tFlag := false, err := false, ecode := 0, ecmd := 0, buf := [],
    nativeOrder := .little, bufBytes := 256, resets := 0, pending := [], answers := [] }

/-- The state after one step, none if the step stops. -/
def stepped (s : State) : Option State :=
  match step s with
  | .next t => some t
  | .fault _ => none
  | .refused _ => none

/-- The state after the unit is given one command word. -/
def issue (w : CmdWord) (s : State) : Option State := stepped (s.withCommand w)

/-- A register after one command. -/
def regAfter (r : Reg) (w : CmdWord) (s : State) : Option Word := (issue w s).map (·.reg r)

/-- `T` after one command. -/
def truthAfter (w : CmdWord) (s : State) : Option Bool := (issue w s).map (·.tFlag)

/-- `ERR`, `ECODE` and `ECMD` after one command. -/
def errorAfter (w : CmdWord) (s : State) : Option (Bool × BitVec 4 × CmdWord) :=
  (issue w s).map fun t => (t.err, t.ecode, t.ecmd)

theorem test_getbits_region_e :
    regAfter 2 0x10910420 (unit 0 0x12345678 0 0) = some 0x12345678 := by decide

theorem test_getbits_overhang :
    regAfter 2 0x10911C08 (unit 0 0x12345678 0 0) = some 0x1 := by decide

theorem test_clrbits_region_e :
    regAfter 1 0x11880420 (unit 0 0xFFFFFFFF 0 0) = some 0 := by decide

theorem test_clrbits_clears_upper_half :
    regAfter 1 0x11882008 (unit 0 0xAAAAAAAAFFFFFFFF 0 0) = some 0xFFFFFFFF := by decide

theorem test_setbits_region_e :
    regAfter 1 0x128A0420 (unit 0 0x12345678 0 0) = some 0x8 := by decide

theorem test_setbits_same_register :
    regAfter 1 0x12890808 (unit 0 0x12345678 0 0) = some 0x12347878 := by decide

theorem test_fillbits_overhang :
    regAfter 1 0x13881C08 (unit 0 0 0 0) = some 0xF0000000 := by decide

theorem test_fillbits_narrow :
    regAfter 1 0x130800FF (unit 0 0x0100 0 0) = some 0xFF := by decide

theorem test_isbitset_in_range :
    truthAfter 0x14880300 (unit 0 0x12345678 0 0) = some true := by decide

theorem test_isbitset_out_of_range :
    truthAfter 0x14481000 { unit 0 0x01FFFF 0 0 with tFlag := true } = some false := by decide

theorem test_setbit_top :
    regAfter 1 0x15C83F00 (unit 0 0x1 0 0) = some 0x8000000000000001 := by decide

theorem test_setbit_out_of_range :
    regAfter 1 0x1588C800 (unit 0 0x12345678 0 0) = some 0x12345678 := by decide

theorem test_clrbit_low :
    regAfter 1 0x16880000 (unit 0 0xFFFFFFFF 0 0) = some 0xFFFFFFFE := by decide

theorem test_clrbit_out_of_range :
    regAfter 1 0x16080800 (unit 0 0xFF 0 0) = some 0xFF := by decide

theorem test_clrbitsl_drops_out_of_range :
    regAfter 0 0x18410003 (unit 0xFFFF 0x100F00 0 0) = some 0x7FFE := by decide

theorem test_clrbitsl_long_list :
    errorAfter 0x18810009 (unit 0xFFFFFFFF 0x0B0A090803020100 0 0) = some (true, 3, 0x18810009) := by decide

theorem test_fillbitsl_source_example :
    regAfter 0 0x19810008 (unit 0 0x0B0A090803020100 0 0) = some 0x0F0F := by decide

theorem test_fillbitsl_same_register :
    regAfter 1 0x19890001 (unit 0 0x1F 0 0) = some 0x8000001F := by decide

theorem test_isany_some :
    truthAfter 0x1A810002 (unit 0x0F0F 0x0400 0 0) = some true := by decide

theorem test_isany_empty :
    truthAfter 0x1A810000 { unit 0xFFFFFFFF 0 0 0 with tFlag := true } = some false := by decide

theorem test_areall_all :
    truthAfter 0x1B810004 (unit 0x0F0F 0x0B080300 0 0) = some true := by decide

theorem test_areall_out_of_range :
    truthAfter 0x1B810002 { unit 0xFFFFFFFF 0xFF03 0 0 with tFlag := true } = some false := by decide

theorem test_isnone_none :
    truthAfter 0x1C010002 (unit 0xFFFF 0x0908 0 0) = some true := by decide

theorem test_isnone_long_list :
    errorAfter 0x1C8100C8 (unit 0 0 0 0) = some (true, 3, 0x1C8100C8) := by decide

theorem test_getbyte_overhang :
    regAfter 2 0x20911C00 (unit 0 0x12345678 0 0) = some 0x1 := by decide

theorem test_getbyte_narrow :
    errorAfter 0x20110000 (unit 0 0x12345678 0x99 0) = some (true, 2, 0x20110000) := by decide

theorem test_setbyte_ignores_high_source :
    regAfter 1 0x218A0800 (unit 0 0x12345678 0x01FF 0) = some 0x1234FF78 := by decide

theorem test_setbyte_overhang :
    regAfter 1 0x214A0C00 (unit 0 0x1234 0xAB 0) = some 0xB234 := by decide

theorem test_clrbyte_unit :
    regAfter 1 0x22880800 (unit 0 0x12345678 0 0) = some 0x12340078 := by decide

theorem test_clrbyte_overhang :
    regAfter 1 0x22C83C00 (unit 0 0xFFFFFFFFFFFFFFFF 0 0) = some 0x0FFFFFFFFFFFFFFF := by decide

theorem test_fillbyte_unit :
    regAfter 1 0x23880800 (unit 0 0x12345678 0 0) = some 0x1234FF78 := by decide

theorem test_fillbyte_overhang :
    regAfter 1 0x23480C00 (unit 0 0 0 0) = some 0xF000 := by decide

theorem test_getword_unaligned :
    regAfter 2 0x24910800 (unit 0 0x12345678 0 0) = some 0x3456 := by decide

theorem test_getword_narrow :
    errorAfter 0x24110009 (unit 0 0x1234 0 0) = some (true, 2, 0x24110009) := by decide

theorem test_setword_overhang :
    regAfter 1 0x258A1800 (unit 0 0x12345678 0xBEEF 0) = some 0xEF345678 := by decide

theorem test_setword_ignores_high_source :
    regAfter 1 0x25CA3000 (unit 0 0x0123456789ABCDEF 0x01BEEF 0) = some 0xBEEF456789ABCDEF := by decide

theorem test_clrword_unit :
    regAfter 1 0x26880000 (unit 0 0x12345678 0 0) = some 0x12340000 := by decide

theorem test_clrword_overhang :
    regAfter 1 0x26C83800 (unit 0 0x0123456789ABCDEF 0 0) = some 0x23456789ABCDEF := by decide

theorem test_fillword_unit :
    regAfter 1 0x27881000 (unit 0 0x12345678 0 0) = some 0xFFFF5678 := by decide

theorem test_fillword_narrow :
    errorAfter 0x27480000 (unit 0 0 0 0) = some (true, 2, 0x27480000) := by decide

theorem test_getdword_overhang :
    regAfter 2 0x28D13000 (unit 0 0x0123456789ABCDEF 0 0) = some 0x0123 := by decide

theorem test_getdword_narrow :
    errorAfter 0x28910000 (unit 0 0x0123456789ABCDEF 0 0) = some (true, 2, 0x28910000) := by decide

theorem test_setdword_high :
    regAfter 1 0x29CA2000 (unit 0 0x0123456789ABCDEF 0xDEADBEEF 0) = some 0xDEADBEEF89ABCDEF := by decide

theorem test_setdword_ignores_high_source :
    regAfter 1 0x29CA0000 (unit 0 0x0123456789ABCDEF 0x01DEADBEEF 0) = some 0x01234567DEADBEEF := by decide

theorem test_clrdword_low :
    regAfter 1 0x2AC80000 (unit 0 0x0123456789ABCDEF 0 0) = some 0x0123456700000000 := by decide

theorem test_clrdword_overhang :
    regAfter 1 0x2AC83000 (unit 0 0x0123456789ABCDEF 0 0) = some 0x456789ABCDEF := by decide

theorem test_filldword_high :
    regAfter 1 0x2BC82000 (unit 0 0x0123456789ABCDEF 0 0) = some 0xFFFFFFFF89ABCDEF := by decide

theorem test_filldword_narrow :
    errorAfter 0x2B480000 (unit 0 0x0123456789ABCDEF 0 0) = some (true, 2, 0x2B480000) := by decide

theorem test_combine_ignores_high_parts :
    regAfter 3 0x30590200 (unit 0 0xFF12 0xAA34 0) = some 0x1234 := by decide

theorem test_combine_narrow :
    errorAfter 0x30D9C200 (unit 0 0x1 0x2 0) = some (true, 2, 0x30D9C200) := by decide

theorem test_wrb_big_truncated :
    (issue 0x40818203 (unit 0 0x12345678 0x10 3)).map (fun t => (t.buf, t.tFlag)) =
      some ([(0x10, 0x34), (0x11, 0x56), (0x12, 0x78)], false) := by decide

theorem test_wrb_no_wrap :
    errorAfter 0x40814203 (unit 0 0x12345678 0xFFFFFFFFFFFFFFFF 2) = some (true, 4, 0x40814203) := by decide

theorem test_rdb_little_short :
    (issue 0x41A04203 { unit 0 0 0x10 3 with buf := [(0x10, 0x34), (0x11, 0x56), (0x12, 0x78)] }).map
      (fun t => (t.reg 4, t.tFlag)) = some (0x785634, false) := by decide

theorem test_rdb_native_big :
    regAfter 4 0x41A00203
      { unit 0 0 0x10 4 with buf := [(0x10, 0x12), (0x11, 0x34), (0x12, 0x56), (0x13, 0x78)], nativeOrder := .big } =
      some 0x12345678 := by decide

theorem test_reserved_opcode :
    errorAfter 0x17880000 (unit 0 0 0 0) = some (true, 1, 0x17880000) := by decide

theorem test_field_error_before_window :
    errorAfter 0x4081C203 (unit 0 0x12345678 0x012C 4) = some (true, 3, 0x4081C203) := by decide

/-- First error wins (section 3.4, step 10): a later one changes neither `ECODE` nor `ECMD`. -/
theorem test_first_error_wins :
    errorAfter 0x28980000 { unit 0 0 0 0 with err := true, ecode := 1 } = some (true, 1, 0) := by decide

/-! The host port (section 2.12). -/

/-- The unit with `T`, `ERR`, `ECODE` and `ECMD` as in rows 13 to 16 of section 2.12, and one pending transaction. -/
def port (t : HostTxn) : State :=
  { unit 0 0 0 0xFFFFFFFF with tFlag := true, err := true, ecode := 3, ecmd := 0x4081C203, pending := [t] }

/-- What the host reads in one transaction. -/
def hostReads (s : State) : Option (List HostAnswer) := (stepped s).map (·.answers)

theorem test_status_reads :
    hostReads (port (.regRead 9)) = some [.regValue 0x33] ∧ hostReads (port (.regRead 10)) = some [.regValue 0x4081C203] ∧
    hostReads (port (.regRead 11)) = some [.regValue 0x00010000] ∧ hostReads (port (.regRead 8)) = some [.regValue 0] ∧
    hostReads (port (.regRead 12)) = some [.regValue 0] ∧ hostReads (port (.regRead 3)) = some [.regValue 0xFFFFFFFF] := by
  decide

/-- Rows 15 and 16: only bit 1 of the data clears the error. -/
theorem test_status_write :
    stepped (port (.regWrite 9 0xFFFFFFFFFFFFFFFD)) = some { port .reset with pending := [] } ∧
    stepped (port (.regWrite 9 0xFFFFFFFFFFFFFFFF)) =
      some { port .reset with err := false, ecode := 0, ecmd := 0, pending := [] } := by decide

/-- Row 17: the last byte of `BUF`; the address after it is no address (93_implementation_defined.md U14). -/
theorem test_host_buf :
    stepped (port (.bufWrite 0xFF 0xA5)) = some { port .reset with buf := [(0xFF, 0xA5)], pending := [] } ∧
    hostReads { port (.bufRead 0xFF) with buf := [(0xFF, 0xA5)] } = some [.bufByte 0xA5] ∧
    stepped (port (.bufRead 0x100)) = none := by decide

/-- Row 9: bits 63:32 of a write to `CMD` are ignored. -/
theorem test_command_word_is_low_half :
    stepped { unit 0 0 0 0xFFFFFFFFFFFFFFFF with pending := [.regWrite 8 0xFFFFFFFF13980020] } =
      some (unit 0 0 0 0xFFFFFFFF) := by decide

/-- Row 18: a reset clears the registers and `STATUS`; what it left in `BUF` is not known. -/
theorem test_host_reset :
    stepped { port .reset with buf := [(0xFF, 0xA5)] } =
      some { unit 0 0 0 0 with regs := Vector.replicate 8 0, resets := 1 } := by decide

/-! Witnesses: the hypotheses of each statement that has some are met together by concrete values, each clause at a
boundary of its range. -/

/-- A window of 4 bytes that ends where `BUF` ends. -/
def lastWindow : State := unit 0 0x12345678 0xFC 4

/-- A transfer through `[r2]`, `r3`. -/
def xfer (e : Endian) : FormatX := ⟨.w32, 4, 1, e, 0, 2, 0, 3⟩

theorem lastWindow_ok (e : Endian) : WindowOk (.wrb (xfer e)) lastWindow ∧ WindowOk (.rdb (xfer e)) lastWindow := by
  constructor <;> (rintro f ⟨⟩; exact (by decide : 0xFC + 4 ≤ 256))

theorem witness_EncodeRecoversTheWord : decode 0x118F0408 = .ok (.clrbits ⟨.w32, 1, 7, 4, 8⟩) := by decide

/-- Both ends of every range of reserved opcodes, and the opcodes beside them. -/
theorem witness_ReservedOpcodeRaises :
    (∀ op ∈ [0x00, 0x0F, 0x17, 0x1D, 0x1F, 0x2C, 0x2F, 0x31, 0x3F, 0x42, 0xFF], ReservedOpcode op) ∧
    (∀ op ∈ [0x10, 0x16, 0x18, 0x1C, 0x20, 0x2B, 0x30, 0x40, 0x41], ¬ReservedOpcode op) ∧
    (port (.regWrite 8 0x17880000)).pending = [.regWrite 8 0x17880000] ∧
    ReservedOpcode ((0x17880000 : Word).extractLsb' 24 8).toNat ∧
    (port (.regWrite 8 0x41A04203)).pending = [.regWrite 8 0x41A04203] ∧
    ¬ReservedOpcode ((0x41A04203 : Word).extractLsb' 24 8).toNat := by
  unfold ReservedOpcode
  decide

theorem witness_StepRunsDecodedCommand :
    (port (.regWrite 8 0xFFFFFFFF13980020)).pending = [.regWrite 8 0xFFFFFFFF13980020] ∧
    decode ((0xFFFFFFFF13980020 : Word).extractLsb' 0 32) = .ok (.fillbits ⟨.w32, 3, 0, 0, 32⟩) := by decide

theorem witness_FetchedWordRunsNext :
    0x41FFFFFF < 2 ^ 32 ∧ decodeTableWord 32 0x41FFFFFF = some (.rdb ⟨.w64, 7, 7, .reserved, 7, 7, 31, 7⟩) := by decide

theorem witness_IdleUnitChangesNothing : State.reset.pending = [] := rfl

theorem witness_LaterTransactionsDoNotInfluence :
    (port (.regWrite 9 2)).pending = .regWrite 9 2 :: [] ∧ ∃ t, step (port (.regWrite 9 2)) = .next t := ⟨rfl, _, rfl⟩

/-- Every index, and the largest `BUF_BYTES`. -/
theorem witness_HostRegReadReturnsTheIndexedValue :
    ∀ i : Fin 16, { port (.regRead i) with bufBytes := 2 ^ 24 - 1 }.bufBytes < 2 ^ 24 ∧
      { port (.regRead i) with bufBytes := 2 ^ 24 - 1 }.pending = .regRead i :: [] := by decide

theorem witness_HostRegWriteStoresAndIgnores :
    ∀ i : Fin 16, (port (.regWrite i 5)).pending = .regWrite i 5 :: [] ∧ (i.val < 8 ∨ i.val = 8 ∨ i.val = 9 ∨ 10 ≤ i.val) := by
  decide

theorem witness_StatusWriteClearsError :
    (port (.regWrite 9 2)).pending = .regWrite 9 2 :: [] ∧ (2 : Word).getLsbD 1 = true ∧
    (port (.regWrite 9 0xFFFFFFFFFFFFFFFD)).pending = .regWrite 9 0xFFFFFFFFFFFFFFFD :: [] ∧
    (0xFFFFFFFFFFFFFFFD : Word).getLsbD 1 = false ∧
    (∃ t, step (port (.regWrite 9 2)) = .next t ∧ (port (.regWrite 9 2)).err = true ∧ t.err = false) ∧
    ∃ t, step (port .reset) = .next t ∧ (port .reset).err = true ∧ t.err = false :=
  ⟨rfl, rfl, rfl, rfl, ⟨_, rfl, rfl, rfl⟩, ⟨_, rfl, rfl, rfl⟩⟩

theorem witness_HostBufReadsAndWritesOneByte :
    (port (.bufRead 255)).pending = .bufRead 255 :: [] ∧ 255 < (port (.bufRead 255)).bufBytes ∧
    (port (.bufRead 256)).pending = .bufRead 256 :: [] ∧ (port (.bufRead 256)).bufBytes ≤ 256 ∧
    (port (.bufWrite 255 7)).pending = .bufWrite 255 7 :: [] ∧ 255 < (port (.bufWrite 255 7)).bufBytes ∧
    (port (.bufWrite 256 7)).pending = .bufWrite 256 7 :: [] ∧ (port (.bufWrite 256 7)).bufBytes ≤ 256 := by decide

theorem witness_ResetLeavesTheResetValues : (port .reset).pending = .reset :: [] := rfl

/-- Both sides of the equivalence: an access to the last byte completes, one past it does not. -/
theorem witness_EveryTransactionCompletes :
    (∃ t, step (port (.bufRead 255)) = .next t) ∧ ¬∃ t, step (port (.bufRead 256)) = .next t :=
  ⟨⟨_, rfl⟩, fun h => h.elim fun _ e => nomatch e⟩

theorem witness_WellTypedCommandNeverRaises :
    (Instr.wrb (xfer .big)).wellTyped = true ∧ WindowOk (.wrb (xfer .big)) lastWindow ∧
    (Instr.isany ⟨.w8, 0, 1, 0, 8⟩).wellTyped = true ∧ WindowOk (.isany ⟨.w8, 0, 1, 0, 8⟩) lastWindow :=
  ⟨rfl, (lastWindow_ok _).1, rfl, fun _ h => nomatch h⟩

/-- One command per check, at the first value that fails it. -/
theorem witness_IllTypedCommandRaises :
    (Instr.getbyte ⟨.w8, 2, 1, 0, 0⟩).wellTyped = false ∧ (Instr.clrword ⟨.w16, 2, 1, 0, 0⟩).wellTyped = false ∧
    (Instr.filldword ⟨.w32, 2, 1, 0, 0⟩).wellTyped = false ∧ (Instr.isnone ⟨.w32, 0, 1, 0, 9⟩).wellTyped = false ∧
    (Instr.combine ⟨.w16, 3, 1, .w16, 0, 2, 0⟩).wellTyped = false ∧ (Instr.rdb (xfer .reserved)).wellTyped = false := by
  decide

/-- A command that does not raise, and one that raises each of the three codes. -/
theorem witness_RaisedCodeFollowsTheOrder :
    lastWindow.err = false ∧ (∃ t, exec (.wrb (xfer .big)) lastWindow = .next t) ∧
    (∃ t, exec (.getbyte ⟨.w8, 2, 1, 0, 0⟩) lastWindow = .next t ∧ t.err = true ∧ t.ecode = 2) ∧
    (∃ t, exec (.wrb (xfer .reserved)) lastWindow = .next t ∧ t.err = true ∧ t.ecode = 3) ∧
    ∃ t, exec (.wrb ⟨.w32, 4, 1, .big, 0, 3, 0, 2⟩) (unit 0 0 0xFD 4) = .next t ∧ t.err = true ∧ t.ecode = 4 :=
  ⟨rfl, ⟨_, rfl⟩, ⟨_, rfl, rfl, rfl⟩, ⟨_, rfl, rfl, rfl⟩, ⟨_, rfl, rfl, rfl⟩⟩

theorem witness_ErrorDoesNotBlock :
    (∃ t, exec (.setbit ⟨.w8, 1, 0, 7, 0⟩) lastWindow = .next t) ∧ (port .reset).err = true ∧
    (Instr.getdword ⟨.w32, 3, 0, 0, 0⟩).wellTyped = false ∧ ReservedOpcode (opField 0x42000000).toNat :=
  ⟨⟨_, rfl⟩, rfl, rfl, by unfold ReservedOpcode; decide⟩

/-! Lists at the longest length and one past it. -/

theorem witness_ClrbitslClearsListedBits :
    (⟨.w32, 0, 1, 0, 8⟩ : FormatB).c.toNat ≤ 8 ∧ 8 < (⟨.w32, 0, 1, 0, 9⟩ : FormatB).c.toNat := by decide

theorem witness_FillbitslSetsListedBits :
    (⟨.w32, 0, 1, 0, 8⟩ : FormatB).c.toNat ≤ 8 ∧ 8 < (⟨.w32, 0, 1, 0, 9⟩ : FormatB).c.toNat := by decide

theorem witness_IsanyTestsForSomeBit :
    (⟨.w32, 0, 1, 0, 8⟩ : FormatB).c.toNat ≤ 8 ∧ 8 < (⟨.w32, 0, 1, 0, 9⟩ : FormatB).c.toNat := by decide

theorem witness_AreallTestsForEveryBit :
    (⟨.w32, 0, 1, 0, 8⟩ : FormatB).c.toNat ≤ 8 ∧ 8 < (⟨.w32, 0, 1, 0, 9⟩ : FormatB).c.toNat := by decide

theorem witness_IsnoneTestsForNoBit :
    (⟨.w32, 0, 1, 0, 8⟩ : FormatB).c.toNat ≤ 8 ∧ 8 < (⟨.w32, 0, 1, 0, 9⟩ : FormatB).c.toNat := by decide


/-- The narrowest container that is wide enough for each unit, and the widest that is not. -/
def AccessorWidths : Prop :=
  8 < Width.w16.bits ∧ Width.w8.bits ≤ 8 ∧ 16 < Width.w32.bits ∧ Width.w16.bits ≤ 16 ∧ 32 < Width.w64.bits ∧ Width.w32.bits ≤ 32

theorem witness_GetAccessorsExtractUnit : AccessorWidths := by unfold AccessorWidths; decide
theorem witness_SetAccessorsReplaceUnit : AccessorWidths := by unfold AccessorWidths; decide
theorem witness_ClrAccessorsZeroUnit : AccessorWidths := by unfold AccessorWidths; decide
theorem witness_FillAccessorsSetUnit : AccessorWidths := by unfold AccessorWidths; decide

theorem witness_CombineConcatenatesParts :
    2 * (⟨.w16, 3, 1, .w8, 0, 2, 0⟩ : FormatC).p.bits ≤ (⟨.w16, 3, 1, .w8, 0, 2, 0⟩ : FormatC).w.bits ∧
    (⟨.w16, 3, 1, .w16, 0, 2, 0⟩ : FormatC).w.bits < 2 * (⟨.w16, 3, 1, .w16, 0, 2, 0⟩ : FormatC).p.bits := by decide

/-- The last window of `BUF` in each order, the first window past it, and the reserved code. -/
def TransferHypotheses : Prop :=
  (SelectsOrder lastWindow (xfer .native).e .little ∧ SelectsOrder lastWindow (xfer .little).e .little ∧
    SelectsOrder lastWindow (xfer .big).e .big ∧
    (lastWindow.reg (xfer .big).rt).toNat + (lastWindow.reg (xfer .big).rl).toNat ≤ lastWindow.bufBytes) ∧
  (xfer .reserved).e = .reserved ∧
  ((xfer .big).e ≠ .reserved ∧
    (unit 0 0 0xFD 4).bufBytes < ((unit 0 0 0xFD 4).reg (xfer .big).rt).toNat + ((unit 0 0 0xFD 4).reg (xfer .big).rl).toNat)

theorem witness_WrbWritesLowBytesInOrder : TransferHypotheses := by unfold TransferHypotheses SelectsOrder; decide
theorem witness_RdbReadsNumberInOrder : TransferHypotheses := by unfold TransferHypotheses SelectsOrder; decide

/-- `W = 8`: a run that ends at the top of the container, the saturating count, and the first offset past the top. -/
theorem witness_PrimitiveLawsOfTheSource :
    0xA5 < 2 ^ 8 ∧ (3 + 5 ≤ 8 ∧ 5 < 8) ∧ (¬(0 < 0 ∧ 0 < 8 ∧ 8 ≤ 8) ∧ 0 < 8) ∧ ¬(0 < 8 ∧ 8 < 8 ∧ 8 ≤ 9) ∧ 8 ≤ 8 := by decide

theorem witness_OnlyClampedOffsetsMatter : 0xA5 < 2 ^ 64 ∧ 64 ≤ 64 ∧ 64 ≤ 255 ∧ 64 ≤ 64 := by decide

theorem witness_CombineInvertsTheGetters : 0xFF < 2 ^ 8 ∧ 0xFF < 2 ^ 8 ∧ 2 * 8 ≤ 16 := by decide

theorem witness_SerAndDeserAreInverse : 3 < 4 ∧ 0xFFFFFFFF < 2 ^ (8 * 4) := by decide

/-- The same order, and the two orders with a window of exactly the value's length. -/
theorem witness_WriteThenReadReturnsTheValue :
    SelectsOrder lastWindow (xfer .big).e .big ∧ SelectsOrder lastWindow (xfer .native).e .little ∧
    (xfer .native).w = (xfer .big).w ∧ (xfer .native).rt = (xfer .big).rt ∧ (xfer .native).rl = (xfer .big).rl ∧
    (lastWindow.reg (xfer .big).rt).toNat + (lastWindow.reg (xfer .big).rl).toNat ≤ lastWindow.bufBytes ∧
    ByteOrder.little ≠ ByteOrder.big ∧ (xfer .big).w.bits / 8 ≤ (lastWindow.reg (xfer .big).rl).toNat := by
  unfold SelectsOrder
  decide

theorem witness_ExplicitOrderIgnoresNativeOrder :
    (∀ f, (Instr.wrb (xfer .big)).transfer = some f → f.e ≠ .native) ∧
    ∃ t, exec (.wrb (xfer .big)) lastWindow = .next t :=
  ⟨by rintro f ⟨⟩; decide, _, rfl⟩

theorem witness_IndexListsActAsSets : 0xA5 < 2 ^ 8 ∧ ∀ i, i ∈ [1, 7, 8] ↔ i ∈ [8, 7, 1, 7] := by
  refine ⟨by decide, fun i => ?_⟩
  simp only [List.mem_cons, List.not_mem_nil]
  tauto

/-- Each unit in the narrowest container it may stand in, low and high. -/
theorem witness_HalfFormsReachTheirUnit :
    unitBits .byte < Width.w16.bits ∧ unitBits .word < Width.w32.bits ∧ unitBits .dword < Width.w64.bits ∧
    0 = (if Half.low = .low then 0 else unitBits .byte) ∧ 8 = (if Half.high = .low then 0 else unitBits .byte) ∧
    16 = (if Half.high = .low then 0 else unitBits .word) ∧ 32 = (if Half.high = .low then 0 else unitBits .dword) := by
  decide

theorem witness_IgnoredFieldsHaveNoEffect :
    (Instr.wrb ⟨.w32, 5, 1, .big, 7, 2, 31, 3⟩).wellTyped = true ∧
    WindowOk (.wrb ⟨.w32, 5, 1, .big, 7, 2, 31, 3⟩) lastWindow :=
  ⟨rfl, by rintro f ⟨⟩; decide⟩

/-- A state that meets the invariant with an error recorded, and a step from it. -/
theorem witness_EveryStepKeepsTheInvariant :
    { port (.regWrite 8 0x40814203) with buf := [(0, 1), (255, 2)] }.Inv ∧
    ∃ t, step { port (.regWrite 8 0x40814203) with buf := [(0, 1), (255, 2)] } = .next t := by
  refine ⟨⟨by decide, by decide, by decide, by decide, by decide, fun _ => ?_⟩, _, rfl⟩
  exact Or.inr (Or.inl ⟨rfl, rfl, rfl⟩)

theorem witness_ParametersNeverChange : ∃ t, step (port .reset) = .next t := ⟨_, rfl⟩

theorem witness_OnlyTransfersReachBuf :
    ((∀ f, Instr.rdb (xfer .big) ≠ .wrb f) ∧ ∃ t, exec (.rdb (xfer .big)) lastWindow = .next t) ∧
    (∀ f, Instr.wrb (xfer .big) ≠ .rdb f) ∧ ∃ t, exec (.wrb (xfer .big)) lastWindow = .next t :=
  ⟨⟨fun _ => Instr.noConfusion, ⟨_, rfl⟩⟩, fun _ => Instr.noConfusion, ⟨_, rfl⟩⟩

theorem witness_OnlySixCommandsTouchTruth :
    ((Instr.setbit ⟨.w8, 1, 0, 7, 0⟩).writesTruth = false ∧ ∃ t, exec (.setbit ⟨.w8, 1, 0, 7, 0⟩) lastWindow = .next t) ∧
    ((Instr.wrb (xfer .reserved)).wellTyped = false ∧ ∃ t, exec (.wrb (xfer .reserved)) lastWindow = .next t) ∧
    (Instr.wrb (xfer .big)).writesTruth = true ∧ (Instr.wrb (xfer .big)).wellTyped = true ∧
    WindowOk (.wrb (xfer .big)) lastWindow ∧ ∃ t, exec (.wrb (xfer .big)) lastWindow = .next t :=
  ⟨⟨rfl, _, rfl⟩, ⟨rfl, _, rfl⟩, rfl, rfl, (lastWindow_ok _).1, _, rfl⟩

theorem witness_CommandsTouchOnlyNamedRegisters :
    ((∃ t, exec (.rdb (xfer .big)) lastWindow = .next t) ∧ (Instr.rdb (xfer .big)).destination ≠ some 3) ∧
    ((∃ t, exec (.wrb (xfer .reserved)) lastWindow = .next t) ∧ (Instr.wrb (xfer .reserved)).wellTyped = false) ∧
    (∀ r ∈ (Instr.rdb (xfer .big)).sources, (#v[9, 9, 0xFC, 4, 9, 9, 9, 9] : Vector Word 8)[r] = lastWindow.regs[r]) ∧
    (Instr.rdb (xfer .big)).wellTyped = true ∧ WindowOk (.rdb (xfer .big)) lastWindow :=
  ⟨⟨⟨_, rfl⟩, by decide⟩, ⟨⟨_, rfl⟩, rfl⟩, by decide, rfl, (lastWindow_ok _).2⟩

theorem witness_ResultsAreZeroExtended :
    (Instr.rdb (xfer .big)).wellTyped = true ∧ WindowOk (.rdb (xfer .big)) lastWindow ∧
    (∃ t, exec (.rdb (xfer .big)) lastWindow = .next t) ∧ (Instr.rdb (xfer .big)).destination = some 4 ∧
    (⟨.w32, 1, 0, 32, 8⟩ : FormatB).w.bits ≤ (⟨.w32, 1, 0, 32, 8⟩ : FormatB).b.toNat :=
  ⟨rfl, (lastWindow_ok _).2, ⟨_, rfl⟩, rfl, by decide⟩

end Sys2Proof.Tests
end

/-! SUPPORT. The encoding: every field of a command word decodes to what was encoded (30_encoding.md R81 to R90). -/

namespace Sys2Proof

/-- A field that lies in the upper part of a concatenation is a field of that part. The width of the whole word is left
to unification, since a command word is a concatenation whose width only evaluates to 32. -/
theorem extractLsb'_append_high {v w : Nat} (x : BitVec v) (y : BitVec w) {start len : Nat} (h : w ≤ start) :
    BitVec.extractLsb' start len (n := no_index _) (x ++ y) = BitVec.extractLsb' (start - w) len x :=
  BitVec.extractLsb'_append_eq_of_le h

/-- The field that is the lower part of a concatenation, again at whatever width the whole word is written. -/
theorem extractLsb'_append_low {v w : Nat} (x : BitVec v) (y : BitVec w) :
    BitVec.extractLsb' 0 w (n := no_index _) (x ++ y) = y :=
  BitVec.extractLsb'_append_eq_right

@[simp] theorem widthOfCode_code (w : Width) : widthOfCode w.code = w := by cases w <;> rfl

@[simp] theorem endianOfCode_code (e : Endian) : endianOfCode e.code = e := by cases e <;> rfl

@[simp] theorem Reg.toFin_code (r : Reg) : (Reg.code r).toFin = r := rfl

@[simp] theorem decodeB_encodeB (op : Byte) (f : FormatB) : decodeB (encodeB op f) = f := by
  simp (disch := omega) only [decodeB, encodeB, widthField, regField, extractLsb'_append_high,
    extractLsb'_append_low, Nat.reduceSub, widthOfCode_code, Reg.toFin_code]

@[simp] theorem decodeC_encodeC (op : Byte) (f : FormatC) : decodeC (encodeC op f) = f := by
  simp (disch := omega) only [decodeC, encodeC, widthField, regField, extractLsb'_append_high,
    extractLsb'_append_low, Nat.reduceSub, widthOfCode_code, Reg.toFin_code]

@[simp] theorem decodeX_encodeX (op : Byte) (f : FormatX) : decodeX (encodeX op f) = f := by
  simp (disch := omega) only [decodeX, encodeX, widthField, regField, extractLsb'_append_high,
    extractLsb'_append_low, Nat.reduceSub, widthOfCode_code, endianOfCode_code, Reg.toFin_code]

/-- The opcode field of every command's word is its opcode (30_encoding.md R90). -/
theorem opField_encode (i : Instr) : opField (encode i) = i.opcode := by
  cases i with
  | combine f => exact Laws.opField_encodeC _ f
  | wrb f | rdb f => exact Laws.opField_encodeX _ f
  | _ f => exact Laws.opField_encodeB _ f

/-- The decoder selects by the opcode and reads the fields by the command's format, so it undoes `encode`. -/
theorem decode_encode (i : Instr) : decode (encode i) = .ok i := by
  rw [decode, opField_encode]
  cases i with
  | combine f => simp [Instr.opcode, encode]
  | wrb f | rdb f => simp [Instr.opcode, encode]
  | _ f => simp [Instr.opcode, encode]

/-! The checks of the meanings are those of `Instr.wellTyped` (30_encoding.md R92, R93, R96). -/

theorem FormatB.widerThan_eq_false (U : Nat) (f : FormatB) : f.widerThan U = false ↔ f.w.bits ≤ U := by
  simp [FormatB.widerThan]

theorem FormatB.listFits_eq_false (f : FormatB) : f.listFits = false ↔ f.c.toNat > Machine.listMax := by
  simp [FormatB.listFits, Machine.listMax]

theorem FormatC.widthsFit_eq_false (f : FormatC) : f.widthsFit = false ↔ f.w.bits < 2 * f.p.bits := by
  simp [FormatC.widthsFit]

theorem FormatX.orderNamed_eq (f : FormatX) (s : Machine.State) : f.orderNamed = (s.order f.e).isSome := by
  cases h : f.e <;> simp [FormatX.orderNamed, Machine.State.order, h]

end Sys2Proof

/-! SUPPORT. Everything a command can do to the state, said once (`exec_outcome`). -/

namespace Sys2Proof.Machine

/-- Two answers of one step are the same, so what some answer satisfies, the answer given satisfies. -/
theorem of_exists_next {o : Host.Outcome State Fault Refusal} {P : State → Prop} {t : State}
    (ho : ∃ t, o = .next t ∧ P t) (ht : o = .next t) : P t := by
  obtain ⟨t', ht', hP⟩ := ho
  cases ht.symm.trans ht'
  exact hP

/-- The window clause of a command that has a window (20_memory.md R66). -/
theorem windowOk_iff {i : Instr} {f : FormatX} (h : i.transfer = some f) (s : State) :
    WindowOk i s ↔ s.windowFits f = true := by
  simp [WindowOk, h, State.windowFits_iff]

/-- What the command `i` may make of the state `s`: error capture by an ill-typed command or by one whose window leaves
`BUF`, and otherwise a write of its destination, of `T`, or of bytes inside its window. -/
inductive CommandOutcome (i : Instr) (s : State) : State → Prop
  /-- 30_encoding.md R92, R93. -/
  | illTyped {code : ErrorCode} (typed : i.wellTyped = false)
      (code_eq : code = if i.checksWidth then .badWidth else .badField) :
      CommandOutcome i s (s.captureError code (encode i))
  /-- 20_memory.md R66. -/
  | windowOutside (typed : i.wellTyped = true) (outside : ¬WindowOk i s) :
      CommandOutcome i s (s.captureError .bufRange (encode i))
  /-- A bit-field, list, accessor or combination command with a result. -/
  | result {rd : Reg} (n : Nat) (typed : i.wellTyped = true) (noWindow : i.transfer = none)
      (dest : i.destination = some rd) : CommandOutcome i s (s.writeResult rd n)
  /-- A command that only answers in `T`. -/
  | truth (b : Bool) (typed : i.wellTyped = true) (noWindow : i.transfer = none)
      (dest : i.destination = none) : CommandOutcome i s (s.writeTruth b)
  /-- WRB (44_byte_transfer.md R234). -/
  | stored {f : FormatX} {bytes : List Byte} (b : Bool) (isWrb : i = .wrb f) (typed : i.wellTyped = true)
      (inside : WindowOk i s) (moved : bytes.length = s.movedBytes f) :
      CommandOutcome i s ((s.memWrite (s.windowBase f) bytes).writeTruth b)
  /-- RDB (44_byte_transfer.md R235). -/
  | loaded {f : FormatX} (n : Nat) (b : Bool) (isRdb : i = .rdb f) (typed : i.wellTyped = true)
      (inside : WindowOk i s) : CommandOutcome i s ((s.writeResult f.rd n).writeTruth b)

section Guarded

variable {i : Instr} {s : State} {ill : Prop} [Decidable ill] {code : ErrorCode}

/-- A command that makes one type check and then writes its destination. -/
theorem guardedResult_outcome {rd : Reg} {n : Nat} (check : i.wellTyped = false ↔ ill)
    (code_eq : code = if i.checksWidth then .badWidth else .badField) (noWindow : i.transfer = none)
    (dest : i.destination = some rd) :
    ∃ t, (if ill then raiseIllegal code i s else .next (s.writeResult rd n)) = .next t ∧
      CommandOutcome i s t := by
  split
  next h => exact ⟨_, rfl, .illTyped (check.2 h) code_eq⟩
  next h => exact ⟨_, rfl, .result n (by simpa [h] using check) noWindow dest⟩

/-- A command that makes one type check and then writes `T`. -/
theorem guardedTruth_outcome {b : Bool} (check : i.wellTyped = false ↔ ill)
    (code_eq : code = if i.checksWidth then .badWidth else .badField) (noWindow : i.transfer = none)
    (dest : i.destination = none) :
    ∃ t, (if ill then raiseIllegal code i s else .next (s.writeTruth b)) = .next t ∧
      CommandOutcome i s t := by
  split
  next h => exact ⟨_, rfl, .illTyped (check.2 h) code_eq⟩
  next h => exact ⟨_, rfl, .truth b (by simpa [h] using check) noWindow dest⟩

end Guarded

section Transfer

variable {f : FormatX} {s : State} {E : ByteOrder}

theorem exec_wrb_of_order_none (h : s.order f.e = none) :
    exec (.wrb f) s = raiseIllegal .badField (.wrb f) s := by
  simp [exec, execWrb, h]

theorem exec_wrb_of_outside (h : s.order f.e = some E) (hfit : s.windowFits f = false) :
    exec (.wrb f) s = raiseIllegal .bufRange (.wrb f) s := by
  simp [exec, execWrb, h, hfit]

theorem exec_wrb_of_fits (h : s.order f.e = some E) (hfit : s.windowFits f = true) :
    exec (.wrb f) s =
      .next ((s.memWrite (s.windowBase f)
        (bytesToWrite (s.container f.rs f.w.bits) (s.movedBytes f) E)).writeTruth
        (transferComplete (valueBytes f) (s.windowLen f))) := by
  simp [exec, execWrb, h, hfit]

theorem exec_rdb_of_order_none (h : s.order f.e = none) :
    exec (.rdb f) s = raiseIllegal .badField (.rdb f) s := by
  simp [exec, execRdb, h]

theorem exec_rdb_of_outside (h : s.order f.e = some E) (hfit : s.windowFits f = false) :
    exec (.rdb f) s = raiseIllegal .bufRange (.rdb f) s := by
  simp [exec, execRdb, h, hfit]

theorem exec_rdb_of_fits (h : s.order f.e = some E) (hfit : s.windowFits f = true) :
    exec (.rdb f) s =
      .next ((s.writeResult f.rd (valueRead (s.memRead (s.windowBase f) (s.movedBytes f)) E)).writeTruth
        (transferComplete (valueBytes f) (s.windowLen f))) := by
  simp [exec, execRdb, h, hfit]

/-- The checks of a transfer command in the order of 30_encoding.md R95, the endianness code before the window; what
is left is the command that passes both. -/
theorem transfer_outcome {i : Instr} (window : i.transfer = some f) (check : i.wellTyped = f.orderNamed)
    (noWidth : i.checksWidth = false)
    (unnamed : s.order f.e = none → exec i s = raiseIllegal .badField i s)
    (outside : ∀ {E}, s.order f.e = some E → s.windowFits f = false → exec i s = raiseIllegal .bufRange i s)
    (done : ∀ {E}, s.order f.e = some E → s.windowFits f = true → i.wellTyped = true → WindowOk i s →
      ∃ t, exec i s = .next t ∧ CommandOutcome i s t) :
    ∃ t, exec i s = .next t ∧ CommandOutcome i s t := by
  rw [f.orderNamed_eq s] at check
  have windowOk := windowOk_iff window s
  cases hE : s.order f.e with
  | none => exact ⟨_, unnamed hE, .illTyped (by simp [check, hE]) (by simp [noWidth])⟩
  | some E =>
    have typed : i.wellTyped = true := by simp [check, hE]
    cases hfit : s.windowFits f with
    | false => exact ⟨_, outside hE hfit, .windowOutside typed (by simp [windowOk, hfit])⟩
    | true => exact done hE hfit typed (windowOk.2 hfit)

end Transfer

/-- Every command completes, and in one of the ways of `CommandOutcome` (60_exceptions.md R260, R306). -/
theorem exec_outcome (i : Instr) (s : State) : ∃ t, exec i s = .next t ∧ CommandOutcome i s t := by
  cases i with
  | getbits f | clrbits f | setbits f | fillbits f | setbit f | clrbit f =>
    exact ⟨_, rfl, .result _ rfl rfl rfl⟩
  | isbitset f => exact ⟨_, rfl, .truth _ rfl rfl rfl⟩
  | clrbitsl f | fillbitsl f => exact guardedResult_outcome f.listFits_eq_false rfl rfl rfl
  | isany f | areall f | isnone f => exact guardedTruth_outcome f.listFits_eq_false rfl rfl rfl
  | getbyte f | setbyte f | clrbyte f | fillbyte f
  | getword f | setword f | clrword f | fillword f
  | getdword f | setdword f | clrdword f | filldword f =>
    exact guardedResult_outcome (f.widerThan_eq_false _) rfl rfl rfl
  | combine f => exact guardedResult_outcome f.widthsFit_eq_false rfl rfl rfl
  | wrb f =>
    exact transfer_outcome rfl rfl rfl exec_wrb_of_order_none exec_wrb_of_outside
      fun hE hfit typed inside =>
        ⟨_, exec_wrb_of_fits hE hfit, .stored _ rfl typed inside (length_bytesToWrite ..)⟩
  | rdb f =>
    exact transfer_outcome rfl rfl rfl exec_rdb_of_order_none exec_rdb_of_outside
      fun hE hfit typed inside => ⟨_, exec_rdb_of_fits hE hfit, .loaded _ _ rfl typed inside⟩

/-- A command that has completed did so in one of the ways of `CommandOutcome`. -/
theorem CommandOutcome.of_exec {i : Instr} {s t : State} (h : exec i s = .next t) : CommandOutcome i s t :=
  of_exists_next (exec_outcome i s) h

/-- No command touches the parameters or the host's side. -/
theorem CommandOutcome.sameSurroundings {i : Instr} {s t : State} (h : CommandOutcome i s t) :
    SameSurroundings s t := by
  cases h with
  | illTyped | windowOutside =>
    obtain ⟨-, -, -, same, -⟩ := s.captureError_only _ _
    exact same
  | result | truth | stored | loaded => exact ⟨rfl, rfl, rfl, rfl, rfl⟩

/-- A command that passes its checks records nothing. -/
theorem CommandOutcome.sameErrors {i : Instr} {s t : State} (h : CommandOutcome i s t)
    (typed : i.wellTyped = true) (inside : WindowOk i s) : SameErrors s t := by
  cases h with
  | illTyped ill => simp [typed] at ill
  | windowOutside _ outside => exact absurd inside outside
  | result | truth | stored | loaded => exact ⟨rfl, rfl, rfl⟩

end Sys2Proof.Machine

/-! SUPPORT. Everything a transaction can do to the state, said once (`serve_outcome`, `step_outcome`). -/

namespace Sys2Proof.Machine

open Sys2Proof.Claims

/-- The transaction does not name a byte past the end of a `BUF` of `n` bytes (10_state.md R34). -/
def HostTxn.InBuf (n : Nat) : HostTxn → Prop
  | .bufRead a | .bufWrite a _ => a < n
  | .regRead _ | .regWrite _ _ | .reset => True

theorem HostTxn.inBuf_iff (txn : HostTxn) (n : Nat) :
    txn.InBuf n ↔ ∀ a, (txn = .bufRead a → a < n) ∧ ∀ v, txn = .bufWrite a v → a < n := by
  cases txn <;> simp [HostTxn.InBuf]

/-- What serving a transaction may make of the state `s` (10_state.md R26 to R36). -/
inductive ServeOutcome (s : State) : HostTxn → State → Prop
  | regRead (i : Fin 16) : ServeOutcome s (.regRead i) (s.answer (.regValue (s.indexValue i)))
  | regWrite (i : Fin 16) (d : Word) (isReg : i.val < 8) :
      ServeOutcome s (.regWrite i d) (s.writeReg ⟨i.val, isReg⟩ d)
  | command (d : Word) {i : Instr} {t : State} (decoded : decode (d.extractLsb' 0 32) = .ok i)
      (ran : CommandOutcome i s t) : ServeOutcome s (.regWrite 8 d) t
  | reservedOpcode (d : Word) {e : DecodeError} (reserved : decode (d.extractLsb' 0 32) = .error e) :
      ServeOutcome s (.regWrite 8 d) (s.captureError .illegalOpcode (d.extractLsb' 0 32))
  | errorCleared (d : Word) (set : d.getLsbD 1 = true) : ServeOutcome s (.regWrite 9 d) s.clearError
  | errorKept (d : Word) (clear : d.getLsbD 1 = false) : ServeOutcome s (.regWrite 9 d) s
  | ignored (i : Fin 16) (d : Word) (readOnly : 10 ≤ i.val) : ServeOutcome s (.regWrite i d) s
  | bufRead {a : Nat} (inBuf : a < s.bufBytes) :
      ServeOutcome s (.bufRead a) (s.answer (.bufByte (s.bufByte a)))
  | bufWrite {a : Nat} (v : Byte) (inBuf : a < s.bufBytes) :
      ServeOutcome s (.bufWrite a v) (s.memWrite a [v])
  | reset : ServeOutcome s .reset s.hostReset

theorem issueCommand_of_ok {cmd : CmdWord} {i : Instr} (h : decode cmd = .ok i) (s : State) :
    issueCommand cmd s = exec i s := by
  simp [issueCommand, h]

theorem issueCommand_of_error {cmd : CmdWord} {e : DecodeError} (h : decode cmd = .error e) (s : State) :
    issueCommand cmd s = .next (s.captureError .illegalOpcode cmd) := by
  simp [issueCommand, h]

theorem hostRegWrite_reg {i : Fin 16} (h : i.val < 8) (d : Word) (s : State) :
    hostRegWrite i d s = .next (s.writeReg ⟨i.val, h⟩ d) := by
  simp [hostRegWrite, h]

theorem hostRegWrite_cmd (d : Word) (s : State) : hostRegWrite 8 d s = issueCommand (d.extractLsb' 0 32) s := rfl

theorem hostRegWrite_status (d : Word) (s : State) :
    hostRegWrite 9 d s = if d.getLsbD 1 then .next s.clearError else .next s := rfl

theorem hostRegWrite_ignored {i : Fin 16} (h : 10 ≤ i.val) (d : Word) (s : State) :
    hostRegWrite i d s = .next s := by
  have h8 : ¬i.val < 8 := by omega
  simp only [hostRegWrite, h8, dite_false]
  split
  next h => omega
  next h => omega
  next => rfl

/-- A register write completes whatever the index and the datum, a command word among them. -/
theorem hostRegWrite_outcome (i : Fin 16) (d : Word) (s : State) :
    ∃ t, hostRegWrite i d s = .next t ∧ ServeOutcome s (.regWrite i d) t := by
  obtain isReg | rfl | rfl | readOnly : i.val < 8 ∨ i = 8 ∨ i = 9 ∨ 10 ≤ i.val := by omega
  · exact ⟨_, hostRegWrite_reg isReg d s, .regWrite i d isReg⟩
  · rw [hostRegWrite_cmd]
    cases h : decode (d.extractLsb' 0 32) with
    | error e => exact ⟨_, issueCommand_of_error h s, .reservedOpcode d h⟩
    | ok c =>
      obtain ⟨t, ht, ran⟩ := exec_outcome c s
      exact ⟨t, (issueCommand_of_ok h s).trans ht, .command d h ran⟩
  · rw [hostRegWrite_status]
    split
    next set => exact ⟨_, rfl, .errorCleared d set⟩
    next clear => exact ⟨_, rfl, .errorKept d (by simpa using clear)⟩
  · exact ⟨_, hostRegWrite_ignored readOnly d s, .ignored i d readOnly⟩

/-- A transaction that names no byte past the end of `BUF` completes, in one of the ways of `ServeOutcome`. -/
theorem serve_outcome {txn : HostTxn} {s : State} (h : txn.InBuf s.bufBytes) :
    ∃ t, serve txn s = .next t ∧ ServeOutcome s txn t := by
  cases txn with
  | regRead i => exact ⟨_, rfl, .regRead i⟩
  | regWrite i d => exact hostRegWrite_outcome i d s
  | bufRead a => exact ⟨_, if_pos h, .bufRead h⟩
  | bufWrite a v => exact ⟨_, if_pos h, .bufWrite v h⟩
  | reset => exact ⟨_, rfl, .reset⟩

/-- Every other transaction is refused (10_state.md R34, log entry 9). -/
theorem serve_refused {txn : HostTxn} {s : State} (h : ¬txn.InBuf s.bufBytes) :
    ∃ a, serve txn s = .refused (.hostBufAddressOutside a) := by
  cases txn with
  | bufRead a => exact ⟨a, if_neg h⟩
  | bufWrite a v => exact ⟨a, if_neg h⟩
  | regRead | regWrite | reset => exact absurd trivial h

theorem serve_completes_iff (txn : HostTxn) (s : State) :
    (∃ t, serve txn s = .next t) ↔ txn.InBuf s.bufBytes := by
  refine ⟨fun ⟨t, ht⟩ => ?_, fun h => (serve_outcome h).imp fun _ => And.left⟩
  by_contra h
  obtain ⟨a, ha⟩ := serve_refused h
  cases ht.symm.trans ha

theorem step_of_pending_nil {s : State} (h : s.pending = []) : step s = .next s := by
  simp [step, serveOldest, h]

theorem step_of_pending_cons {s : State} {txn : HostTxn} {rest : List HostTxn} (h : s.pending = txn :: rest) :
    step s = serve txn (afterTaking s rest) := by
  simp [step, serveOldest, h, afterTaking]

/-- A step that completes is idle or has served the oldest pending transaction. -/
theorem step_outcome {s t : State} (h : step s = .next t) :
    (s.pending = [] ∧ t = s) ∨
      ∃ txn rest, s.pending = txn :: rest ∧ ServeOutcome (afterTaking s rest) txn t := by
  cases hp : s.pending with
  | nil =>
    cases (step_of_pending_nil hp).symm.trans h
    exact .inl ⟨rfl, rfl⟩
  | cons txn rest =>
    rw [step_of_pending_cons hp] at h
    have inBuf := (serve_completes_iff txn _).1 ⟨t, h⟩
    exact .inr ⟨txn, rest, rfl, of_exists_next (serve_outcome inBuf) h⟩

/-- No transaction changes the parameters (00_scope.md R5). -/
theorem ServeOutcome.sameParameters {s t : State} {txn : HostTxn} (h : ServeOutcome s txn t) :
    t.nativeOrder = s.nativeOrder ∧ t.bufBytes = s.bufBytes := by
  cases h with
  | command d decoded ran =>
    obtain ⟨order, size, -⟩ := ran.sameSurroundings
    exact ⟨order, size⟩
  | reservedOpcode => simp
  | regRead | regWrite | errorCleared | errorKept | ignored | bufRead | bufWrite | reset => exact ⟨rfl, rfl⟩

/-- `CONFIG` shows the parameters and nothing else (10_state.md R31). -/
theorem State.configWord_congr {s t : State} (order : t.nativeOrder = s.nativeOrder)
    (size : t.bufBytes = s.bufBytes) : t.configWord = s.configWord := by
  simp only [State.configWord, order, size]

end Sys2Proof.Machine

/-! SUPPORT. The invariant: what each operation needs to keep it. -/

namespace Sys2Proof.Machine

open Sys2Proof.Claims

theorem explains_iff_of_ok {code : BitVec 4} {cmd : CmdWord} {i : Instr} (h : decode cmd = .ok i) :
    Explains code cmd ↔
      (code = 2 ∧ i.checksWidth = true ∧ i.wellTyped = false) ∨
      (code = 3 ∧ i.checksWidth = false ∧ i.wellTyped = false) ∨
      (code = 4 ∧ i.transfer.isSome = true ∧ i.wellTyped = true) := by
  simp only [Explains, h]

theorem explains_reservedOpcode {cmd : CmdWord} {e : DecodeError} (h : decode cmd = .error e) :
    Explains ErrorCode.illegalOpcode.number cmd := by
  simp only [Explains, h, ErrorCode.number]

/-- The word of an ill-typed command explains the code of its type check. -/
theorem explains_encode_of_illTyped {i : Instr} (typed : i.wellTyped = false) :
    Explains (ErrorCode.number (if i.checksWidth then .badWidth else .badField)) (encode i) := by
  rw [explains_iff_of_ok (decode_encode i)]
  cases h : i.checksWidth with
  | true => exact .inl ⟨rfl, rfl, typed⟩
  | false => exact .inr (.inl ⟨rfl, rfl, typed⟩)

/-- The word of a well-typed command explains `BUF_RANGE` if the command has a window to leave. -/
theorem explains_encode_of_windowOutside {i : Instr} {s : State} (typed : i.wellTyped = true)
    (outside : ¬WindowOk i s) : Explains ErrorCode.bufRange.number (encode i) := by
  rw [explains_iff_of_ok (decode_encode i)]
  have transfer : i.transfer.isSome = true := by
    by_contra h
    exact outside fun f hf => by simp [hf] at h
  exact .inr (.inr ⟨rfl, transfer, typed⟩)

/-- The invariant speaks of `BUF_BYTES`, the bytes of `BUF` and the error registers only. -/
theorem State.Inv.of_unchanged {s t : State} (hs : s.Inv) (size : t.bufBytes = s.bufBytes) (buf : t.buf = s.buf)
    (errors : SameErrors s t) : t.Inv := by
  obtain ⟨err, ecode, ecmd⟩ := errors
  constructor <;> simp only [size, buf, err, ecode, ecmd]
  exacts [hs.bufBytes_ge, hs.bufBytes_lt, hs.buf_wf, hs.buf_inside, hs.no_error, hs.error_explained]

theorem State.Inv.captureError {s : State} (hs : s.Inv) {code : ErrorCode} {cmd : CmdWord}
    (explained : Explains code.number cmd) : (s.captureError code cmd).Inv where
  bufBytes_ge := by simpa using hs.bufBytes_ge
  bufBytes_lt := by simpa using hs.bufBytes_lt
  buf_wf := by simpa using hs.buf_wf
  buf_inside := by simpa using hs.buf_inside
  no_error := by simp
  error_explained _ := by
    cases h : s.err with
    | false => simpa [h] using explained
    | true => simpa [h] using hs.error_explained h

theorem State.Inv.memWrite {s : State} (hs : s.Inv) {addr : Nat} {bytes : List Byte}
    (fits : addr + bytes.length ≤ s.bufBytes) : (s.memWrite addr bytes).Inv where
  bufBytes_ge := hs.bufBytes_ge
  bufBytes_lt := hs.bufBytes_lt
  buf_wf := Memory.writeBytes_wf bytes addr hs.buf_wf
  buf_inside := Memory.writeBytes_inside bytes hs.buf_inside fits
  no_error := hs.no_error
  error_explained := hs.error_explained

theorem State.Inv.clearError {s : State} (hs : s.Inv) : s.clearError.Inv where
  bufBytes_ge := hs.bufBytes_ge
  bufBytes_lt := hs.bufBytes_lt
  buf_wf := hs.buf_wf
  buf_inside := hs.buf_inside
  no_error _ := ⟨rfl, rfl⟩
  error_explained := by simp

/-- A reset needs of the state before it the parameters alone. -/
theorem State.Inv.hostReset {s : State} (hs : s.Inv) : s.hostReset.Inv where
  bufBytes_ge := hs.bufBytes_ge
  bufBytes_lt := hs.bufBytes_lt
  buf_wf := List.Pairwise.nil
  buf_inside := by simp
  no_error _ := ⟨rfl, rfl⟩
  error_explained := by simp

/-- The bytes a transfer moves lie in its window (20_memory.md R66, R68). -/
theorem windowBase_add_movedBytes_le {i : Instr} {f : FormatX} {s : State} (h : i.transfer = some f)
    (inside : WindowOk i s) : s.windowBase f + s.movedBytes f ≤ s.bufBytes :=
  (Nat.add_le_add_left (Nat.min_le_right ..) _).trans (inside f h)

theorem CommandOutcome.inv {i : Instr} {s t : State} (h : CommandOutcome i s t) (hs : s.Inv) : t.Inv := by
  cases h with
  | illTyped typed code_eq => exact hs.captureError (code_eq ▸ explains_encode_of_illTyped typed)
  | windowOutside typed outside => exact hs.captureError (explains_encode_of_windowOutside typed outside)
  | result | truth | loaded => exact hs.of_unchanged rfl rfl (SameErrors.refl s)
  | stored b isWrb _ inside moved =>
    subst isWrb
    have fits := windowBase_add_movedBytes_le rfl inside
    exact (hs.memWrite (moved ▸ fits)).of_unchanged rfl rfl (SameErrors.refl _)

theorem ServeOutcome.inv {s t : State} {txn : HostTxn} (h : ServeOutcome s txn t) (hs : s.Inv) : t.Inv := by
  cases h with
  | regRead | regWrite | bufRead => exact hs.of_unchanged rfl rfl (SameErrors.refl s)
  | command d decoded ran => exact ran.inv hs
  | reservedOpcode d reserved => exact hs.captureError (explains_reservedOpcode reserved)
  | errorCleared => exact hs.clearError
  | errorKept | ignored => exact hs
  | bufWrite v inBuf => exact hs.memWrite inBuf
  | reset => exact hs.hostReset

end Sys2Proof.Machine

/-! CERTIFICATE. The statements about every step of the machine. -/

namespace Sys2Proof.Proofs

open Sys2Proof.Machine Sys2Proof.Claims

/-- Settles O48: taking a transaction off the host's list is no part of the invariant, and serving it keeps the
invariant in each of the ways `step_outcome` lists. -/
theorem everyStepKeepsTheInvariant : Obligations.EveryStepKeepsTheInvariant := by
  intro s t hs h
  rcases step_outcome h with ⟨-, rfl⟩ | ⟨txn, rest, -, served⟩
  · exact hs
  · exact served.inv (hs.of_unchanged rfl rfl (SameErrors.refl s))

/-- Settles O14: the step serves the oldest transaction, and that is refused exactly if it names a byte past the end of
`BUF`. -/
theorem everyTransactionCompletes : Obligations.EveryTransactionCompletes := by
  intro s
  cases hp : s.pending with
  | nil => simp [step_of_pending_nil hp]
  | cons txn rest =>
    rw [step_of_pending_cons hp, serve_completes_iff, HostTxn.inBuf_iff]
    simp [afterTaking, forall_and]

/-- Settles O15: of the ways a command can complete, the two that raise are excluded by the hypotheses. -/
theorem wellTypedCommandNeverRaises : Obligations.WellTypedCommandNeverRaises := by
  intro i s typed inside
  obtain ⟨t, ht, outcome⟩ := exec_outcome i s
  exact ⟨t, ht, outcome.sameErrors typed inside, outcome.sameSurroundings⟩

/-- Settles O50, by the ways a step can complete; `CONFIG` is a function of the two parameters. -/
theorem parametersNeverChange : Obligations.ParametersNeverChange := by
  intro s t h
  have ⟨order, size⟩ : t.nativeOrder = s.nativeOrder ∧ t.bufBytes = s.bufBytes := by
    rcases step_outcome h with ⟨-, rfl⟩ | ⟨txn, rest, -, served⟩
    · exact ⟨rfl, rfl⟩
    · exact served.sameParameters
  exact ⟨order, size, State.configWord_congr order size⟩

/-- Settles O49: `BUF_BYTES` is in its range by the form of `Config.bufBytes`, and nothing is written or recorded. -/
theorem resetMeetsTheInvariant : Obligations.ResetMeetsTheInvariant where
  bufBytes_ge := Nat.le_add_left 8 _
  bufBytes_lt := Nat.add_lt_add_right Config.bufExtra.isLt 8
  buf_wf := State.reset_buf_wf
  buf_inside := by simp [State.reset]
  no_error _ := ⟨rfl, rfl⟩
  error_explained := by simp [State.reset]

end Sys2Proof.Proofs

/-! SUPPORT. Bounds: the value of every pure function is a value of the container's width (10_state.md R23). -/

namespace Sys2Proof.Machine

theorem getBits_lt {W v : Nat} (hv : v < 2 ^ W) (b c : Nat) : getBits W v b c < 2 ^ W := by
  refine Nat.lt_pow_two_of_testBit _ fun j hj => ?_
  simp [testBit_getBits, testBit_of_le hv hj, testBit_of_le hv (hj.trans (Nat.le_add_left j b))]

theorem clearBits_lt {W v : Nat} (hv : v < 2 ^ W) (b c : Nat) : clearBits W v b c < 2 ^ W := by
  refine Nat.lt_pow_two_of_testBit _ fun j hj => ?_
  simp [testBit_clearBits hv, testBit_of_le hv hj]

theorem fillBits_lt {W v : Nat} (hv : v < 2 ^ W) (b c : Nat) : fillBits W v b c < 2 ^ W := setBits_lt hv _ b c

theorem setBit_lt {W v : Nat} (hv : v < 2 ^ W) (i : Nat) : setBit W v i < 2 ^ W := by
  refine Nat.lt_pow_two_of_testBit _ fun j hj => ?_
  simp [testBit_setBit, testBit_of_le hv hj, Nat.not_lt.2 hj]

theorem clearList_lt {W v : Nat} (hv : v < 2 ^ W) (I : List Nat) : clearList W v I < 2 ^ W := by
  refine Nat.lt_pow_two_of_testBit _ fun j hj => ?_
  simp [testBit_clearList hv, testBit_of_le hv hj]

theorem fillList_lt {W v : Nat} (hv : v < 2 ^ W) (I : List Nat) : fillList W v I < 2 ^ W := by
  refine Nat.lt_pow_two_of_testBit _ fun j hj => ?_
  simp [testBit_fillList, testBit_of_le hv hj, Nat.not_lt.2 hj]

theorem getUnit_lt {W v : Nat} (hv : v < 2 ^ W) (U b : Nat) : getUnit W U v b < 2 ^ W := getBits_lt hv b U

theorem setUnit_lt {W v : Nat} (hv : v < 2 ^ W) (U s b : Nat) : setUnit W U v s b < 2 ^ W := setBits_lt hv s b U

theorem clearUnit_lt {W v : Nat} (hv : v < 2 ^ W) (U b : Nat) : clearUnit W U v b < 2 ^ W := clearBits_lt hv b U

theorem fillUnit_lt {W v : Nat} (hv : v < 2 ^ W) (U b : Nat) : fillUnit W U v b < 2 ^ W := fillBits_lt hv b U

/-- A combination needs the width of two parts (43_combine.md R220). -/
theorem combine_lt {P W : Nat} (wide : 2 * P ≤ W) (h l : Nat) : combine P h l < 2 ^ W := by
  refine Nat.lt_pow_two_of_testBit _ fun j hj => ?_
  have outside : ¬j < P ∧ ¬j < 2 * P := by omega
  simp [testBit_combine, outside]

theorem valueRead_lt (bytes : List Byte) (E : ByteOrder) : valueRead bytes E < 2 ^ (8 * bytes.length) := by
  cases E with
  | little => exact deserLittle_lt bytes
  | big => simpa [valueRead, deser] using deserLittle_lt bytes.reverse

/-- A transfer moves no more bits than its value has (20_memory.md R68). -/
theorem State.movedBytes_bits_le (s : State) (f : FormatX) : 8 * s.movedBytes f ≤ f.w.bits := by
  have moved : s.movedBytes f ≤ f.w.bits / 8 := Nat.min_le_left ..
  omega

/-- RDB's value has at most the width its command names (44_byte_transfer.md R232). -/
theorem valueRead_memRead_lt (s : State) (f : FormatX) (addr : Nat) (E : ByteOrder) :
    valueRead (s.memRead addr (s.movedBytes f)) E < 2 ^ f.w.bits := by
  have read := valueRead_lt (s.memRead addr (s.movedBytes f)) E
  rw [State.length_memRead] at read
  exact read.trans_le (Nat.pow_le_pow_right (by decide) (s.movedBytes_bits_le f))

/-- A run that begins past the container clears nothing (40_bitfield_primitives.md R121). -/
theorem clearBits_of_le {W b : Nat} (h : W ≤ b) (v c : Nat) : clearBits W v b c = v := if_pos h

theorem widthBits_le (w : Width) : w.bits ≤ 64 := by cases w <;> decide

/-- A result that fits some width is read back from its register unchanged (10_state.md R23). -/
theorem State.writeResult_toNat {n : Nat} {w : Width} (fits : n < 2 ^ w.bits) (s : State) (r : Reg) :
    ((s.writeResult r n).reg r).toNat = n := by
  rw [State.writeResult_eq, State.writeReg_reg_same, BitVec.toNat_ofNat]
  exact Nat.mod_eq_of_lt (fits.trans_le (Nat.pow_le_pow_right (by decide) (widthBits_le w)))

/-- A register write changes its register only (10_state.md R20). -/
theorem State.writeReg_only (s : State) (r : Reg) (v : Word) : OnlyRegWritten r s (s.writeReg r v) :=
  ⟨fun _ h => s.writeReg_reg_other _ h, rfl, SameErrors.refl s, fun _ => rfl, SameSurroundings.refl s⟩

/-- Error capture neither reads nor writes `T` (60_exceptions.md R262). -/
theorem State.captureError_writeTruth (s : State) (b : Bool) (code : ErrorCode) (cmd : CmdWord) :
    (s.writeTruth b).captureError code cmd = (s.captureError code cmd).writeTruth b := by
  cases h : s.err <;> simp [State.captureError, State.writeTruth, h]

end Sys2Proof.Machine

/-! SUPPORT. A command that raises: which code it captures, and that it does nothing else (60_exceptions.md R262). -/

namespace Sys2Proof.Machine

/-- What the command raises if it raises: the failed type check before the window check (30_encoding.md R95). -/
def raisedCode (i : Instr) : ErrorCode :=
  if i.wellTyped then .bufRange else if i.checksWidth then .badWidth else .badField

theorem windowOk_of_noWindow {i : Instr} (h : i.transfer = none) (s : State) : WindowOk i s :=
  fun f hf => by simp [h] at hf

/-- A command that fails a check ends in its error capture, whose code and word depend on the command alone. -/
theorem CommandOutcome.eq_captureError {i : Instr} {s t : State} (h : CommandOutcome i s t)
    (raises : i.wellTyped = false ∨ ¬WindowOk i s) : t = s.captureError (raisedCode i) (encode i) := by
  have passed : i.wellTyped = true → WindowOk i s → False := by
    rintro typed inside
    simp [typed, inside] at raises
  cases h with
  | illTyped typed code_eq => simp [raisedCode, typed, code_eq]
  | windowOutside typed => simp [raisedCode, typed]
  | result _ typed noWindow | truth _ typed noWindow =>
    exact (passed typed (windowOk_of_noWindow noWindow s)).elim
  | stored _ _ typed inside | loaded _ _ _ typed inside => exact (passed typed inside).elim

theorem exec_of_raises {i : Instr} {s : State} (raises : i.wellTyped = false ∨ ¬WindowOk i s) :
    exec i s = .next (s.captureError (raisedCode i) (encode i)) := by
  obtain ⟨t, ht, outcome⟩ := exec_outcome i s
  rw [ht, outcome.eq_captureError raises]

/-- A command changes no register but its destination (10_state.md R21). -/
theorem CommandOutcome.reg_eq {i : Instr} {s t : State} (h : CommandOutcome i s t) {r : Reg}
    (other : i.destination ≠ some r) : t.reg r = s.reg r := by
  cases h with
  | illTyped | windowOutside => simp
  | result n _ _ dest => exact s.writeReg_reg_other _ fun same => other (same ▸ dest)
  | truth | stored => rfl
  | loaded _ _ isRdb => exact s.writeReg_reg_other _ fun same => other (by simp [isRdb, Instr.destination, same])

end Sys2Proof.Machine

/-! SUPPORT. What a command reads, and that its effect is a function of it (`exec_completion`, 10_state.md R21, R25). -/

namespace Sys2Proof.Machine

/-- Two states agree on everything the command `i` may read: its source registers, the parameters and `BUF`. -/
structure SameInputs (i : Instr) (s s' : State) : Prop where
  regs : ∀ r ∈ i.sources, s'.reg r = s.reg r
  nativeOrder : s'.nativeOrder = s.nativeOrder
  bufBytes : s'.bufBytes = s.bufBytes
  buf : SameBuf s s'

theorem SameInputs.refl (i : Instr) (s : State) : SameInputs i s s := ⟨fun _ _ => rfl, rfl, rfl, fun _ => rfl⟩

/-- `T` is nothing a command reads (10_state.md R25). -/
theorem SameInputs.writeTruth (i : Instr) (s : State) (b : Bool) : SameInputs i s (s.writeTruth b) :=
  ⟨fun _ _ => rfl, rfl, rfl, fun _ => rfl⟩

section Operands

variable {s s' : State}

theorem State.container_congr {r : Reg} (h : s'.reg r = s.reg r) (width : Nat) :
    s'.container r width = s.container r width := by rw [State.container, h, State.container]

theorem State.fullReg_congr {r : Reg} (h : s'.reg r = s.reg r) : s'.fullReg r = s.fullReg r := by
  rw [State.fullReg, h, State.fullReg]

theorem State.indices_congr {f : FormatB} (h : s'.reg f.rs = s.reg f.rs) : s'.indices f = s.indices f := by
  rw [State.indices, State.fullReg_congr h, State.indices]

theorem State.windowBase_congr {f : FormatX} (h : s'.reg f.rt = s.reg f.rt) :
    s'.windowBase f = s.windowBase f := State.fullReg_congr h

theorem State.windowLen_congr {f : FormatX} (h : s'.reg f.rl = s.reg f.rl) :
    s'.windowLen f = s.windowLen f := State.fullReg_congr h

theorem State.movedBytes_congr {f : FormatX} (h : s'.reg f.rl = s.reg f.rl) :
    s'.movedBytes f = s.movedBytes f := by rw [State.movedBytes, State.windowLen_congr h, State.movedBytes]

theorem State.order_congr (h : s'.nativeOrder = s.nativeOrder) (e : Endian) : s'.order e = s.order e := by
  cases e <;> simp [State.order, h]

theorem State.memRead_congr (h : SameBuf s s') (addr n : Nat) : s'.memRead addr n = s.memRead addr n := by
  simp only [State.memRead, h _]

end Operands

/-- What the command `i`, if it passes its checks, makes of two states: one and the same effect on both. -/
inductive Completion (i : Instr) (s s' : State) : State → State → Prop
  | result {rd : Reg} {n : Nat} (dest : i.destination = some rd) (silent : i.writesTruth = false)
      (fits : n < 2 ^ i.width.bits) : Completion i s s' (s.writeResult rd n) (s'.writeResult rd n)
  | truth (b : Bool) (dest : i.destination = none) (answers : i.writesTruth = true) :
      Completion i s s' (s.writeTruth b) (s'.writeTruth b)
  | stored (addr : Nat) (bytes : List Byte) (b : Bool) (dest : i.destination = none)
      (answers : i.writesTruth = true) :
      Completion i s s' ((s.memWrite addr bytes).writeTruth b) ((s'.memWrite addr bytes).writeTruth b)
  | loaded {rd : Reg} {n : Nat} (b : Bool) (dest : i.destination = some rd) (answers : i.writesTruth = true)
      (fits : n < 2 ^ i.width.bits) :
      Completion i s s' ((s.writeResult rd n).writeTruth b) ((s'.writeResult rd n).writeTruth b)

/-- The command completes in both states, with the same effect. -/
def Completes (i : Instr) (s s' : State) (o o' : Host.Outcome State Fault Refusal) : Prop :=
  ∃ t t', o = .next t ∧ o' = .next t' ∧ Completion i s s' t t'

section Completes

variable {i : Instr} {s s' : State} {ill : Prop} [Decidable ill] {code : ErrorCode}

theorem completes_result {rd : Reg} {n n' : Nat} (same : n' = n) (fits : n < 2 ^ i.width.bits)
    (dest : i.destination = some rd) (silent : i.writesTruth = false) :
    Completes i s s' (.next (s.writeResult rd n)) (.next (s'.writeResult rd n')) := by
  subst same
  exact ⟨_, _, rfl, rfl, .result dest silent fits⟩

theorem completes_truth {b b' : Bool} (same : b' = b) (dest : i.destination = none)
    (answers : i.writesTruth = true) :
    Completes i s s' (.next (s.writeTruth b)) (.next (s'.writeTruth b')) := by
  subst same
  exact ⟨_, _, rfl, rfl, .truth _ dest answers⟩

/-- A type check that the command passes does not show. -/
theorem Completes.guarded {o o' : Host.Outcome State Fault Refusal} (h : Completes i s s' o o')
    (check : i.wellTyped = false ↔ ill) (typed : i.wellTyped = true) :
    Completes i s s' (if ill then raiseIllegal code i s else o) (if ill then raiseIllegal code i s' else o') := by
  have passed : ¬ill := by simp [← check, typed]
  simpa only [passed, if_false] using h

end Completes

/-- A transfer command that passes its checks has an order and a window, the same in states with the same inputs. -/
theorem transfer_passes {i : Instr} {f : FormatX} {s s' : State} (h : SameInputs i s s')
    (base : s'.reg f.rt = s.reg f.rt) (len : s'.reg f.rl = s.reg f.rl) (window : i.transfer = some f)
    (named : f.orderNamed = true) (inside : WindowOk i s) :
    ∃ E, (s.order f.e = some E ∧ s.windowFits f = true) ∧ s'.order f.e = some E ∧ s'.windowFits f = true := by
  rw [f.orderNamed_eq s] at named
  obtain ⟨E, hE⟩ := Option.isSome_iff_exists.1 named
  have fits := (windowOk_iff window s).1 inside
  refine ⟨E, ⟨hE, fits⟩, (State.order_congr h.nativeOrder _).trans hE, ?_⟩
  simpa only [State.windowFits_iff, base, len, h.bufBytes] using fits

/-- A command that passes its checks has the same effect on all states that agree on what it reads. -/
theorem exec_completion {i : Instr} {s s' : State} (h : SameInputs i s s') (typed : i.wellTyped = true)
    (inside : WindowOk i s) : Completes i s s' (exec i s) (exec i s') := by
  have reads := h.regs
  cases i with simp only [Instr.sources, List.forall_mem_cons] at reads
  | getbits f =>
    obtain ⟨rs, -⟩ := reads
    exact completes_result (by simp only [State.container_congr rs])
      (by simp only [Instr.width, getBits_lt, State.container_lt]) rfl rfl
  | clrbits f | fillbits f | setbit f | clrbit f =>
    obtain ⟨rd, -⟩ := reads
    exact completes_result (by simp only [State.container_congr rd])
      (by simp only [Instr.width, clearBits_lt, fillBits_lt, setBit_lt, clearBit_lt, State.container_lt]) rfl rfl
  | setbits f =>
    obtain ⟨rd, rs, -⟩ := reads
    exact completes_result (by simp only [State.container_congr rd, State.fullReg_congr rs])
      (by simp only [Instr.width, setBits_lt, State.container_lt]) rfl rfl
  | isbitset f =>
    obtain ⟨rd, -⟩ := reads
    exact completes_truth (by simp only [State.container_congr rd]) rfl rfl
  | clrbitsl f | fillbitsl f =>
    obtain ⟨rd, rs, -⟩ := reads
    exact (completes_result (by simp only [State.container_congr rd, State.indices_congr rs])
      (by simp only [Instr.width, clearList_lt, fillList_lt, State.container_lt]) rfl rfl).guarded
      f.listFits_eq_false typed
  | isany f | areall f | isnone f =>
    obtain ⟨rd, rs, -⟩ := reads
    exact (completes_truth (by simp only [State.container_congr rd, State.indices_congr rs]) rfl rfl).guarded
      f.listFits_eq_false typed
  | getbyte f | getword f | getdword f | clrbyte f | clrword f | clrdword f | fillbyte f | fillword f | filldword f =>
    obtain ⟨operand, -⟩ := reads
    exact (completes_result (by simp only [State.container_congr operand])
      (by simp only [Instr.width, getUnit_lt, clearUnit_lt, fillUnit_lt, State.container_lt]) rfl rfl).guarded
      (f.widerThan_eq_false _) typed
  | setbyte f | setword f | setdword f =>
    obtain ⟨rd, rs, -⟩ := reads
    exact (completes_result (by simp only [State.container_congr rd, State.fullReg_congr rs])
      (by simp only [Instr.width, setUnit_lt, State.container_lt]) rfl rfl).guarded (f.widerThan_eq_false _) typed
  | combine f =>
    obtain ⟨rs, rt, -⟩ := reads
    exact (completes_result (by simp only [State.fullReg_congr rs, State.fullReg_congr rt])
      (combine_lt (of_decide_eq_true typed) ..) rfl rfl).guarded f.widthsFit_eq_false typed
  | wrb f =>
    obtain ⟨value, base, len, -⟩ := reads
    obtain ⟨E, ⟨hE, fits⟩, hE', fits'⟩ := transfer_passes h base len rfl typed inside
    rw [exec_wrb_of_fits hE fits, exec_wrb_of_fits hE' fits', State.windowBase_congr base,
      State.windowLen_congr len, State.movedBytes_congr len, State.container_congr value]
    exact ⟨_, _, rfl, rfl, .stored _ _ _ rfl rfl⟩
  | rdb f =>
    obtain ⟨base, len, -⟩ := reads
    obtain ⟨E, ⟨hE, fits⟩, hE', fits'⟩ := transfer_passes h base len rfl typed inside
    rw [exec_rdb_of_fits hE fits, exec_rdb_of_fits hE' fits', State.windowBase_congr base,
      State.windowLen_congr len, State.movedBytes_congr len, State.memRead_congr h.buf]
    exact ⟨_, _, rfl, rfl, .loaded _ rfl rfl (valueRead_memRead_lt ..)⟩

/-- The same for one run: a command that passes its checks completes in one of the ways of `Completion`. -/
theorem Completion.of_exec {i : Instr} {s t : State} (h : exec i s = .next t) (typed : i.wellTyped = true)
    (inside : WindowOk i s) : Completion i s s t t := by
  obtain ⟨t₁, t₂, h₁, h₂, done⟩ := exec_completion (.refl i s) typed inside
  cases h₁.symm.trans h
  cases h₂.symm.trans h
  exact done

/-- A command that is not one of the six leaves `T` (10_state.md R25). -/
theorem exec_tFlag_of_silent {i : Instr} {s t : State} (h : exec i s = .next t) (silent : i.writesTruth = false) :
    t.tFlag = s.tFlag := by
  by_cases raises : i.wellTyped = false ∨ ¬WindowOk i s
  · rw [(CommandOutcome.of_exec h).eq_captureError raises, State.captureError_tFlag]
  · obtain ⟨typed, inside⟩ : i.wellTyped = true ∧ WindowOk i s := by simpa using raises
    cases Completion.of_exec h typed inside with
    | result => rfl
    | truth _ _ answers | stored _ _ _ _ answers | loaded _ _ answers => simp [silent] at answers

/-- No command's effect depends on `T`: one that writes `T` writes it alike, every other one leaves it
(10_state.md R25). -/
theorem exec_writeTruth (i : Instr) (s : State) (b : Bool) :
    ∃ t, exec i s = .next t ∧
      ((exec i (s.writeTruth b) = .next (t.writeTruth b) ∧
          (i.writesTruth = true → i.wellTyped = false ∨ ¬WindowOk i s)) ∨
        exec i (s.writeTruth b) = .next t) := by
  by_cases raises : i.wellTyped = false ∨ ¬WindowOk i s
  · have raises' : i.wellTyped = false ∨ ¬WindowOk i (s.writeTruth b) := raises
    refine ⟨_, exec_of_raises raises, .inl ⟨?_, fun _ => raises⟩⟩
    rw [exec_of_raises raises', State.captureError_writeTruth]
  · obtain ⟨typed, inside⟩ : i.wellTyped = true ∧ WindowOk i s := by simpa using raises
    obtain ⟨t, t', ht, ht', done⟩ := exec_completion (.writeTruth i s b) typed inside
    refine ⟨t, ht, ?_⟩
    cases done with
    | result _ silent => exact .inl ⟨ht', by simp [silent]⟩
    | truth | stored | loaded => exact .inr ht'

end Sys2Proof.Machine

/-! SUPPORT. What the host reads at each register index (10_state.md R26 to R31), and the registers at reset. -/

namespace Sys2Proof.Machine

theorem State.indexValue_reg {i : Fin 16} (h : i.val < 8) (s : State) : s.indexValue i = s.reg ⟨i.val, h⟩ :=
  dif_pos h

theorem State.indexValue_cmd (s : State) : s.indexValue 8 = 0 := rfl

theorem State.indexValue_status (s : State) : s.indexValue 9 = s.statusWord := rfl

theorem State.indexValue_ecmd (s : State) : s.indexValue 10 = s.ecmd.setWidth 64 := rfl

theorem State.indexValue_config (s : State) : s.indexValue 11 = s.configWord := rfl

theorem State.indexValue_reserved {i : Fin 16} (h : 12 ≤ i.val) (s : State) : s.indexValue i = 0 := by
  have notReg : ¬i.val < 8 := by omega
  simp only [State.indexValue, notReg, dite_false]
  split
  next h => omega
  next h => omega
  next h => omega
  next => rfl

/-- `STATUS` bit by bit (10_state.md R28). -/
theorem State.getLsbD_statusWord (s : State) (j : Nat) :
    s.statusWord.getLsbD j =
      if j = 0 then s.tFlag else if j = 1 then s.err else decide (4 ≤ j) && s.ecode.getLsbD (j - 4) := by
  simp only [State.statusWord, BitVec.getLsbD_append]
  obtain rfl | rfl | rfl | rfl | high : j = 0 ∨ j = 1 ∨ j = 2 ∨ j = 3 ∨ 4 ≤ j := by omega
  · simp
  · simp
  · simp
  · simp
  · have bits : ¬j < 1 ∧ ¬j - 1 < 1 ∧ ¬j - 1 - 1 < 2 ∧ j ≠ 0 ∧ j ≠ 1 := by omega
    have shift : j - 1 - 1 - 2 = j - 4 := by omega
    simp only [bits, shift, high, if_false, decide_true, Bool.true_and, BitVec.getLsbD_zero]
    split
    next => rfl
    next past => rw [BitVec.getLsbD_of_ge _ _ (Nat.not_lt.1 past)]

/-- A concatenation as a number: the upper part counts multiples of the lower part's range. -/
theorem toNat_append_eq_add {v w : Nat} (x : BitVec v) (y : BitVec w) :
    BitVec.toNat (w := no_index _) (x ++ y) = x.toNat * 2 ^ w + y.toNat := by
  rw [BitVec.toNat_append, ← Nat.shiftLeft_add_eq_or_of_lt y.isLt, Nat.shiftLeft_eq]

/-- `CONFIG` as a number (10_state.md R31), for a `BUF_BYTES` in its range (00_scope.md R5). -/
theorem State.toNat_configWord {s : State} (small : s.bufBytes < 2 ^ 24) :
    s.configWord.toNat = 256 * s.bufBytes + if s.nativeOrder = .big then 1 else 0 := by
  have big : (BitVec.ofBool (s.nativeOrder = .big)).toNat = if s.nativeOrder = .big then 1 else 0 := by
    split <;> simp [*]
  simp only [State.configWord, toNat_append_eq_add, BitVec.toNat_ofNat, Nat.mod_eq_of_lt small, big]
  omega

/-- Every register is 0 at reset (10_state.md R36): `HostReset` leaves the registers of `State.reset`. -/
theorem State.reset_reg (r : Reg) : State.reset.reg r = 0 := State.hostReset_reg State.reset r

end Sys2Proof.Machine

/-! SUPPORT. The command word inside the datum of a write to `CMD` (10_state.md R27). -/

namespace Sys2Proof

/-- The datum that carries a command word in its low half gives it back. -/
theorem extractLsb'_setWidth (cmd : CmdWord) : (cmd.setWidth 64).extractLsb' 0 32 = cmd := by
  rw [BitVec.extractLsb'_setWidth_of_le (by decide), BitVec.extractLsb'_eq_self]

theorem decode_of_decodeTableWord {nbits w : Nat} {i : Instr} (h : decodeTableWord nbits w = some i) :
    decode (BitVec.ofNat 32 (w % 2 ^ nbits)) = .ok i := by
  rw [decodeTableWord] at h
  cases hd : decode (BitVec.ofNat 32 (w % 2 ^ nbits)) with
  | ok c => simpa [hd, Except.toOption] using h
  | error e => simp [hd, Except.toOption] at h

end Sys2Proof

/-! CERTIFICATE. The statements about the state and the host's access to it (10_state.md). -/

namespace Sys2Proof.Proofs

open Sys2Proof.Machine Sys2Proof.Claims

/-- Settles O9, index by index: the answer is `State.indexValue`, and its bits are those of the view it shows. -/
theorem hostRegReadReturnsTheIndexedValue : Obligations.HostRegReadReturnsTheIndexedValue := by
  intro s i rest small hp
  refine ⟨(afterTaking s rest).indexValue i, step_of_pending_cons hp, fun h => State.indexValue_reg h _,
    fun h => ?_, fun h j => ?_, fun h => ?_, fun h => ?_, fun h => State.indexValue_reserved h _⟩
  · obtain rfl : i = 8 := Fin.ext h
    exact State.indexValue_cmd _
  · obtain rfl : i = 9 := Fin.ext h
    rw [State.indexValue_status]
    exact State.getLsbD_statusWord _ j
  · obtain rfl : i = 10 := Fin.ext h
    rw [State.indexValue_ecmd]
    exact BitVec.toNat_setWidth_of_le (by decide)
  · obtain rfl : i = 11 := Fin.ext h
    rw [State.indexValue_config]
    exact State.toNat_configWord small

/-- Settles O10: below index 8 the write is `State.writeReg`, from index 10 on it is none. -/
theorem hostRegWriteStoresAndIgnores : Obligations.HostRegWriteStoresAndIgnores := by
  intro s i d rest hp
  rw [step_of_pending_cons hp]
  exact ⟨fun h => ⟨_, hostRegWrite_reg h d _, State.writeReg_only .., State.writeReg_reg_same ..⟩,
    fun h => hostRegWrite_ignored h d _⟩

/-- Settles O12, by the port's bounds check; a stored byte is a `MemWrite` of length 1. -/
theorem hostBufReadsAndWritesOneByte : Obligations.HostBufReadsAndWritesOneByte := by
  intro s a v rest
  refine ⟨fun hp => ?_, fun hp => ?_⟩ <;> rw [step_of_pending_cons hp]
  · exact ⟨fun inBuf => if_pos inBuf, fun outside => if_neg (Nat.not_lt.2 outside)⟩
  · refine ⟨fun inBuf => ?_, fun outside => if_neg (Nat.not_lt.2 outside)⟩
    obtain ⟨regs, truth, errors, surroundings⟩ := (afterTaking s rest).memWrite_rest a [v]
    refine ⟨_, if_pos inBuf, ?_, fun a' other => ?_, regs, truth, errors, surroundings⟩
    · simp [State.memWrite_bufByte]
    · have elsewhere : ¬(a ≤ a' ∧ a' < a + [v].length) := by simp only [List.length_singleton]; omega
      rw [State.memWrite_bufByte, dif_neg elsewhere]
      rfl

/-- Settles O52: a silent command has no outcome that writes `T`, a raising one ends in error capture, and
`exec_writeTruth` compares the runs from the two values of `T`. -/
theorem onlySixCommandsTouchTruth : Obligations.OnlySixCommandsTouchTruth := by
  refine ⟨fun i s t silent ht => exec_tFlag_of_silent ht silent, fun i s t ht raises => ?_, fun i s t b ht => ?_⟩
  · rw [(CommandOutcome.of_exec ht).eq_captureError raises, State.captureError_tFlag]
  · obtain ⟨t₀, ht₀, run⟩ := exec_writeTruth i s b
    obtain rfl : t₀ = t := by
      cases ht₀.symm.trans ht
      rfl
    obtain ⟨run, raises⟩ | run := run
    · refine ⟨_, run, fun _ => rfl, SameErrors.refl _, fun _ => rfl, SameSurroundings.refl _, ?_⟩
      intro answers typed inside
      simp [typed, inside, answers] at raises
    · exact ⟨_, run, fun _ => rfl, SameErrors.refl _, fun _ => rfl, SameSurroundings.refl _, fun _ _ _ => rfl⟩

/-- Settles O53: the frame is `CommandOutcome.reg_eq`, raising is error capture, and by `exec_completion` states that
agree on the sources meet the same effect. -/
theorem commandsTouchOnlyNamedRegisters : Obligations.CommandsTouchOnlyNamedRegisters := by
  refine ⟨fun i s t r ht other => (CommandOutcome.of_exec ht).reg_eq other, fun i s t ht raises r => ?_,
    fun i s regs' agree typed inside => ?_⟩
  · rw [(CommandOutcome.of_exec ht).eq_captureError raises, State.captureError_reg]
  · have inputs : SameInputs i s { s with regs := regs' } := ⟨agree, rfl, rfl, fun _ => rfl⟩
    obtain ⟨t, t', ht, ht', done⟩ := exec_completion inputs typed inside
    refine ⟨t, t', ht, ht', ?_⟩
    cases done with
    | result dest | loaded _ dest =>
      refine ⟨fun r hr => ?_, rfl, SameErrors.refl _, fun _ => rfl⟩
      cases dest.symm.trans hr
      simp [State.writeResult_eq]
    | truth _ dest | stored _ _ _ dest =>
      exact ⟨fun r hr => by simp [dest] at hr, rfl, SameErrors.refl _, fun _ => rfl⟩

/-- Settles O54: a result's bound is part of `Completion`; CLRBITS past the container writes the container back. -/
theorem resultsAreZeroExtended : Obligations.ResultsAreZeroExtended := by
  refine ⟨fun i s t rd typed inside ht hrd => ?_, fun f s past => ?_⟩
  · cases Completion.of_exec ht typed inside with
    | result dest _ fits | loaded _ dest _ fits =>
      cases dest.symm.trans hrd
      simpa only [State.writeTruth_reg, State.writeResult_toNat fits] using fits
    | truth _ dest | stored _ _ _ dest => simp [dest] at hrd
  · have container := State.writeResult_toNat (s.container_lt f.rd f.w.bits) s f.rd
    refine ⟨s.writeResult f.rd (s.container f.rd f.w.bits), ?_, container, ?_⟩
    · rw [← clearBits_of_le past (s.container f.rd f.w.bits) f.c.toNat]
      rfl
    · rw [← BitVec.toNat_inj, container]
      exact Nat.mod_eq_iff_lt (Nat.two_pow_pos _).ne'

/-- Settles O5: the head of the list is taken off, and a write to `CMD` issues the low half of its datum. -/
theorem stepRunsDecodedCommand : Obligations.StepRunsDecodedCommand := by
  intro s d rest i hp decoded
  rw [step_of_pending_cons hp]
  exact issueCommand_of_ok decoded _

/-- Settles O6, by O5 for the write that withFetchWord puts at the head of the list. -/
theorem fetchedWordRunsNext : Obligations.FetchedWordRunsNext := by
  intro s w i _ decoded
  refine stepRunsDecodedCommand (s.withFetchWord 32 w) _ s.pending i rfl ?_
  rw [extractLsb'_setWidth]
  exact decode_of_decodeTableWord decoded

/-- Settles O13: the transaction is `State.hostReset`, which agrees with `State.reset` on all but the host's side and
the parameters. -/
theorem resetLeavesTheResetValues : Obligations.ResetLeavesTheResetValues := by
  refine ⟨fun s rest hp => ?_, State.reset_reg, rfl, rfl, rfl, rfl⟩
  exact ⟨_, step_of_pending_cons hp, State.hostReset_reg _, rfl, rfl, rfl, rfl, rfl, rfl, rfl⟩

end Sys2Proof.Proofs

/-! SUPPORT. The two byte orders (20_memory.md R54): what a serialised value spells, and which bytes a spelled value
serialises to. -/

namespace Sys2Proof.Machine

/-- Byte `k` of a number, as a quotient (20_memory.md R54). -/
theorem ofNat_shiftRight_eq_div (t k : Nat) :
    BitVec.ofNat 8 (t >>> (8 * k)) = BitVec.ofNat 8 (t / 2 ^ (8 * k) % 256) := by
  rw [Nat.shiftRight_eq_div_pow]
  exact BitVec.eq_of_toNat_eq (by simp)

theorem getLsbD_ofNat_shiftRight (t lo j : Nat) :
    (BitVec.ofNat 8 (t >>> lo)).getLsbD j = (decide (j < 8) && t.testBit (lo + j)) := by
  rw [BitVec.getLsbD_ofNat, Nat.testBit_shiftRight]

theorem ser_getElem?_little {m k : Nat} (h : k < m) (t : Nat) :
    (ser .little t m)[k]? = some (BitVec.ofNat 8 (t / 2 ^ (8 * k) % 256)) := by
  rw [List.getElem?_eq_getElem (by simpa using h), getElem_ser_little t m k h, ofNat_shiftRight_eq_div]

theorem ser_getElem?_big {m k : Nat} (h : k < m) (t : Nat) :
    (ser .big t m)[k]? = some (BitVec.ofNat 8 (t / 2 ^ (8 * (m - 1 - k)) % 256)) := by
  rw [List.getElem?_eq_getElem (by simpa using h), getElem_ser_big t m k h, ofNat_shiftRight_eq_div]

/-- The number a byte sequence spells in little order, as a positional sum. -/
theorem deserLittle_eq_sum_range (bytes : List Byte) :
    deserLittle bytes = ∑ k ∈ Finset.range bytes.length, (bytes.getD k 0).toNat * 2 ^ (8 * k) := by
  induction bytes with
  | nil => rfl
  | cons v vs ih =>
    rw [deserLittle, List.length_cons, Finset.sum_range_succ', ih, Finset.mul_sum, Nat.add_comm]
    congr 1
    · refine Finset.sum_congr rfl fun k _ => ?_
      rw [List.getD_cons_succ, Nat.mul_add, pow_add]
      ring
    · simp

/-- Reading in big order counts the positions from the other end. -/
theorem deserLittle_reverse_eq_sum_range (bytes : List Byte) :
    deserLittle bytes.reverse =
      ∑ k ∈ Finset.range bytes.length, (bytes.getD k 0).toNat * 2 ^ (8 * (bytes.length - 1 - k)) := by
  rw [deserLittle_eq_sum_range, List.length_reverse, ← Finset.sum_range_reflect]
  refine Finset.sum_congr rfl fun k hk => ?_
  have inside : k < bytes.length := Finset.mem_range.1 hk
  have mirror : bytes.length - 1 - (bytes.length - 1 - k) = k := by omega
  have byte : bytes.reverse.getD (bytes.length - 1 - k) 0 = bytes.getD k 0 := by
    rw [List.getD_eq_getElem?_getD, List.getElem?_reverse (by omega), mirror, List.getD_eq_getElem?_getD]
  rw [byte]

theorem deser_little_eq_sum (bytes : List Byte) :
    deser .little bytes = ∑ k : Fin bytes.length, bytes[k].toNat * 2 ^ (8 * k.val) := by
  rw [deser, deserLittle_eq_sum_range, Finset.sum_range]
  simp

theorem deser_big_eq_sum (bytes : List Byte) :
    deser .big bytes = ∑ k : Fin bytes.length, bytes[k].toNat * 2 ^ (8 * (bytes.length - 1 - k.val)) := by
  rw [deser, deserLittle_reverse_eq_sum_range, Finset.sum_range]
  simp

/-- Reading back `m` bytes in little order keeps the value's low `8*m` bits. -/
theorem deserLittle_ser_little (t m : Nat) : deserLittle (ser .little t m) = t % 2 ^ (8 * m) := by
  refine Nat.eq_of_testBit_eq fun j => ?_
  rw [testBit_deserLittle, Nat.testBit_mod_two_pow]
  by_cases inside : j / 8 < m
  · have bit : j < 8 * m ∧ j % 8 < 8 ∧ 8 * (j / 8) + j % 8 = j := by omega
    have byte : (ser .little t m).getD (j / 8) 0 = BitVec.ofNat 8 (t >>> (8 * (j / 8))) := by
      rw [List.getD_eq_getElem _ _ (by simpa using inside), getElem_ser_little _ _ _ inside]
    simp only [byte, getLsbD_ofNat_shiftRight, bit]
  · have outside : ¬j < 8 * m := by omega
    simp [List.getD_eq_getElem?_getD, inside, outside]

/-- Reading in the order of writing keeps the value's low `8*m` bits. -/
theorem deser_ser (E : ByteOrder) (t m : Nat) : deser E (ser E t m) = t % 2 ^ (8 * m) := by
  cases E with
  | little => exact deserLittle_ser_little t m
  | big => rw [deser, ser_big_eq_reverse, List.reverse_reverse, deserLittle_ser_little]

/-- Reading in the other order than that of writing is reading in little order what big order writes. -/
theorem deser_ser_of_ne {E E' : ByteOrder} (other : E' ≠ E) (t m : Nat) :
    deser E' (ser E t m) = deserLittle (ser .big t m) := by
  cases E <;> cases E'
  case little.big => rw [deser, ser_big_eq_reverse]
  case big.little => rfl
  all_goals exact absurd rfl other

/-- Byte `k` of the number a byte sequence spells in little order is its byte `k`. -/
theorem ofNat_deserLittle_shiftRight {bytes : List Byte} {k : Nat} (h : k < bytes.length) :
    BitVec.ofNat 8 (deserLittle bytes >>> (8 * k)) = bytes[k] := by
  refine BitVec.eq_of_getLsbD_eq fun j hj => ?_
  have place : (8 * k + j) / 8 = k ∧ (8 * k + j) % 8 = j := by omega
  simp only [getLsbD_ofNat_shiftRight, testBit_deserLittle, place, hj, List.getD_eq_getElem _ _ h, decide_true,
    Bool.true_and]

theorem ser_little_deserLittle (bytes : List Byte) : ser .little (deserLittle bytes) bytes.length = bytes := by
  refine List.ext_getElem (length_ser ..) fun k _ h => ?_
  rw [getElem_ser_little _ _ _ h, ofNat_deserLittle_shiftRight h]

theorem ser_deser (E : ByteOrder) (bytes : List Byte) : ser E (deser E bytes) bytes.length = bytes := by
  cases E with
  | little => exact ser_little_deserLittle bytes
  | big =>
    have reversed := ser_little_deserLittle bytes.reverse
    rw [List.length_reverse] at reversed
    rw [deser, ser_big_eq_reverse, reversed, List.reverse_reverse]

end Sys2Proof.Machine

/-! SUPPORT. A transfer through a window that another transfer has written (44_byte_transfer.md R236). -/

namespace Sys2Proof.Machine

open Sys2Proof.Claims

/-- The order that the statements name is the one the meanings use (20_memory.md R55). -/
theorem order_of_selectsOrder {s : State} {e : Endian} {E : ByteOrder} (h : SelectsOrder s e E) :
    s.order e = some E := by
  obtain ⟨rfl, rfl⟩ | ⟨rfl, rfl⟩ | ⟨rfl, rfl⟩ := h <;> rfl

/-- `MemRead` of what `MemWrite` has just stored (20_memory.md R52, R53). -/
theorem State.memRead_memWrite (s : State) (addr : Nat) (bytes : List Byte) :
    (s.memWrite addr bytes).memRead addr bytes.length = bytes := by
  refine List.ext_getElem (State.length_memRead ..) fun k _ h => ?_
  rw [State.getElem_memRead _ _ _ _ h, State.memWrite_bufByte, dif_pos (by omega)]
  simp

/-- A value byte of a register inside the value's width is the container's byte. -/
theorem State.ofNat_container_shiftRight (s : State) (r : Reg) {width lo : Nat} (inside : lo + 8 ≤ width) :
    BitVec.ofNat 8 (s.container r width >>> lo) = (s.reg r).extractLsb' lo 8 := by
  refine BitVec.eq_of_getLsbD_eq fun j hj => ?_
  have bit : lo + j < width := by omega
  simp only [getLsbD_ofNat_shiftRight, State.testBit_container, BitVec.getLsbD_extractLsb', hj, bit, decide_true,
    Bool.true_and]

/-- RDB after WRB through the same window reads the bytes that WRB has stored (44_byte_transfer.md R236). -/
theorem exec_rdb_after_wrb {fw fr : FormatX} {s : State} {E E' : ByteOrder} (orderW : s.order fw.e = some E)
    (orderR : s.order fr.e = some E') (width : fr.w = fw.w) (base : fr.rt = fw.rt) (len : fr.rl = fw.rl)
    (fits : s.windowFits fw = true) :
    ∃ t u, exec (.wrb fw) s = .next t ∧ exec (.rdb fr) t = .next u ∧ u.tFlag = t.tFlag ∧
      (u.reg fr.rd).toNat =
        deser E' (ser E (s.container fw.rs fw.w.bits % 2 ^ (8 * s.movedBytes fw)) (s.movedBytes fw)) ∧
      (u.reg fr.rd).toNat < 2 ^ fw.w.bits := by
  obtain ⟨w, rd, rs, e, ign13, rt, ign7, rl⟩ := fr
  subst width base len
  set stored := bytesToWrite (s.container fw.rs fw.w.bits) (s.movedBytes fw) E
  set t := (s.memWrite (s.windowBase fw) stored).writeTruth (transferComplete (valueBytes fw) (s.windowLen fw))
  have read : t.memRead (s.windowBase fw) (s.movedBytes fw) = stored := by
    have back := s.memRead_memWrite (s.windowBase fw) stored
    rw [length_bytesToWrite] at back
    exact back
  have run := exec_rdb_of_fits (f := ⟨fw.w, rd, rs, e, ign13, fw.rt, ign7, fw.rl⟩) (s := t) (E := E')
    ((State.order_congr rfl e).trans orderR) fits
  have small := valueRead_memRead_lt t fw (s.windowBase fw) E'
  have loaded := t.writeResult_toNat small rd
  refine ⟨t, _, exec_wrb_of_fits orderW fits, run, rfl, loaded.trans ?_, loaded.trans_lt small⟩
  show valueRead (t.memRead (s.windowBase fw) (s.movedBytes fw)) E' = _
  rw [read]
  rfl

end Sys2Proof.Machine

/-! CERTIFICATE. The statements about `BUF` and the byte orders (20_memory.md, 44_byte_transfer.md). -/

namespace Sys2Proof.Proofs

open Sys2Proof.Machine Sys2Proof.Claims

/-- Settles O41, clause by clause from the laws of `ser` and `deserLittle`. -/
theorem serAndDeserAreInverse : Obligations.SerAndDeserAreInverse := by
  refine ⟨fun t m k h => ⟨ser_getElem?_little h t, ser_getElem?_big h t⟩, length_ser,
    fun bytes => ⟨deser_little_eq_sum bytes, deser_big_eq_sum bytes⟩, fun E t m small => ?_, ser_deser,
    ser_big_eq_reverse, fun _ => rfl, rfl, rfl⟩
  rw [deser_ser, Nat.mod_eq_of_lt small]

/-- Settles O42: RDB reads the bytes WRB has stored; in the same order they spell the value's low bytes, in the other
one they spell, least significant byte first, what big order writes. -/
theorem writeThenReadReturnsTheValue : Obligations.WriteThenReadReturnsTheValue := by
  intro fw fr s E E' hE hE' width base len window
  obtain ⟨t, u, wrote, read, truth, value, small⟩ := exec_rdb_after_wrb (order_of_selectsOrder hE)
    (order_of_selectsOrder hE') width base len ((s.windowFits_iff fw).2 window)
  refine ⟨t, u, wrote, read, truth, fun same => ?_, fun other whole => ⟨small, fun k hk => ?_⟩⟩
  · rw [value, same, deser_ser, Nat.mod_mod]
    rfl
  · have value_width : 8 * (fw.w.bits / 8) = fw.w.bits := by cases fw.w <;> rfl
    have moved : s.movedBytes fw = fw.w.bits / 8 := Nat.min_eq_left whole
    have fits := s.container_lt fw.rs fw.w.bits
    rw [moved, value_width, Nat.mod_eq_of_lt fits, deser_ser_of_ne other] at value
    have inside : 8 * (fw.w.bits / 8 - 1 - k) + 8 ≤ fw.w.bits := by omega
    calc (u.reg fr.rd).extractLsb' (8 * k) 8
        = BitVec.ofNat 8 (deserLittle (ser .big (s.container fw.rs fw.w.bits) (fw.w.bits / 8)) >>> (8 * k)) := by
          rw [← value]; rfl
      _ = BitVec.ofNat 8 (s.container fw.rs fw.w.bits >>> (8 * (fw.w.bits / 8 - 1 - k))) := by
          rw [ofNat_deserLittle_shiftRight (by simpa using hk), getElem_ser_big _ _ _ hk]
      _ = (s.reg fw.rs).extractLsb' (8 * (fw.w.bits / 8 - 1 - k)) 8 := s.ofNat_container_shiftRight fw.rs inside

end Sys2Proof.Proofs

/-! SUPPORT. What a command may depend on beside the registers, and that it has one and the same effect on states that
agree on that (`exec_sameEffect`, 20_memory.md R51, 44_byte_transfer.md R238). -/

namespace Sys2Proof.Machine

/-- The states agree on the registers, on `BUF_BYTES`, on the order that the command selects, if it is a transfer, and
on the bytes of `BUF`, if it is an RDB: `NATIVE_ORDER` and `BUF` count no further than that. -/
structure SameOperands (i : Instr) (s s' : State) : Prop where
  regs : SameRegs s s'
  bufBytes : s'.bufBytes = s.bufBytes
  order : ∀ f, i.transfer = some f → s'.order f.e = s.order f.e
  loadedBytes : ∀ f, i = .rdb f → SameBuf s s'

/-- One and the same effect on two states. -/
inductive SameEffect (s s' : State) : State → State → Prop
  | raised (code : ErrorCode) (cmd : CmdWord) : SameEffect s s' (s.captureError code cmd) (s'.captureError code cmd)
  | result (rd : Reg) (n : Nat) : SameEffect s s' (s.writeResult rd n) (s'.writeResult rd n)
  | truth (b : Bool) : SameEffect s s' (s.writeTruth b) (s'.writeTruth b)
  | stored (addr : Nat) (bytes : List Byte) (b : Bool) :
      SameEffect s s' ((s.memWrite addr bytes).writeTruth b) ((s'.memWrite addr bytes).writeTruth b)
  | loaded (rd : Reg) (n : Nat) (b : Bool) :
      SameEffect s s' ((s.writeResult rd n).writeTruth b) ((s'.writeResult rd n).writeTruth b)

/-- Both runs complete, with the same effect. -/
def AlikeFrom (s s' : State) (o o' : Host.Outcome State Fault Refusal) : Prop :=
  ∃ t t', o = .next t ∧ o' = .next t' ∧ SameEffect s s' t t'

section AlikeFrom

variable {s s' : State}

theorem alikeFrom_raised (code : ErrorCode) (i : Instr) :
    AlikeFrom s s' (raiseIllegal code i s) (raiseIllegal code i s') :=
  ⟨_, _, rfl, rfl, .raised code (encode i)⟩

theorem alikeFrom_result {rd : Reg} {n n' : Nat} (same : n' = n) :
    AlikeFrom s s' (.next (s.writeResult rd n)) (.next (s'.writeResult rd n')) := by
  subst same
  exact ⟨_, _, rfl, rfl, .result rd n'⟩

theorem alikeFrom_truth {b b' : Bool} (same : b' = b) :
    AlikeFrom s s' (.next (s.writeTruth b)) (.next (s'.writeTruth b')) := by
  subst same
  exact ⟨_, _, rfl, rfl, .truth b'⟩

/-- A check on the command alone fails in both states or in neither. -/
theorem AlikeFrom.guarded {ill : Prop} [Decidable ill] {code : ErrorCode} {i : Instr}
    {o o' : Host.Outcome State Fault Refusal} (h : AlikeFrom s s' o o') :
    AlikeFrom s s' (if ill then raiseIllegal code i s else o) (if ill then raiseIllegal code i s' else o') := by
  split
  · exact alikeFrom_raised code i
  · exact h

end AlikeFrom

theorem SameOperands.windowFits {i : Instr} {s s' : State} (h : SameOperands i s s') (f : FormatX) :
    s'.windowFits f = s.windowFits f := by
  rw [Bool.eq_iff_iff, State.windowFits_iff, State.windowFits_iff, h.regs, h.regs, h.bufBytes]

/-- The two checks of a transfer command turn out alike in both states; what is left is the command that passes
both. -/
theorem transfer_alikeFrom {i : Instr} {f : FormatX} {s s' : State} (h : SameOperands i s s')
    (window : i.transfer = some f)
    (unnamed : ∀ {s}, s.order f.e = none → exec i s = raiseIllegal .badField i s)
    (outside : ∀ {s E}, s.order f.e = some E → s.windowFits f = false → exec i s = raiseIllegal .bufRange i s)
    (done : ∀ {E}, s.order f.e = some E → s.windowFits f = true →
      s'.order f.e = some E → s'.windowFits f = true → AlikeFrom s s' (exec i s) (exec i s')) :
    AlikeFrom s s' (exec i s) (exec i s') := by
  have order := h.order f window
  have fits := h.windowFits f
  cases hE : s.order f.e with
  | none =>
    rw [unnamed hE, unnamed (order.trans hE)]
    exact alikeFrom_raised ..
  | some E =>
    cases hfit : s.windowFits f with
    | false =>
      rw [outside hE hfit, outside (order.trans hE) (fits.trans hfit)]
      exact alikeFrom_raised ..
    | true => exact done hE hfit (order.trans hE) (fits.trans hfit)

/-- A command has the same effect on all states that agree on what may count for it. -/
theorem exec_alikeFrom {i : Instr} {s s' : State} (h : SameOperands i s s') :
    AlikeFrom s s' (exec i s) (exec i s') := by
  have container (r : Reg) (width : Nat) := State.container_congr (h.regs r) width
  have fullReg (r : Reg) := State.fullReg_congr (h.regs r)
  have indices (f : FormatB) := State.indices_congr (f := f) (h.regs f.rs)
  cases i with
  | getbits f | clrbits f | setbits f | fillbits f | setbit f | clrbit f =>
    exact alikeFrom_result (by simp only [container, fullReg])
  | isbitset f => exact alikeFrom_truth (by simp only [container])
  | clrbitsl f | fillbitsl f => exact (alikeFrom_result (by simp only [container, indices])).guarded
  | isany f | areall f | isnone f => exact (alikeFrom_truth (by simp only [container, indices])).guarded
  | getbyte f | setbyte f | clrbyte f | fillbyte f
  | getword f | setword f | clrword f | fillword f
  | getdword f | setdword f | clrdword f | filldword f =>
    exact (alikeFrom_result (by simp only [container, fullReg])).guarded
  | combine f => exact (alikeFrom_result (by simp only [fullReg])).guarded
  | wrb f =>
    refine transfer_alikeFrom h rfl exec_wrb_of_order_none exec_wrb_of_outside fun hE fits hE' fits' => ?_
    rw [exec_wrb_of_fits hE fits, exec_wrb_of_fits hE' fits', State.windowBase_congr (h.regs _),
      State.windowLen_congr (h.regs _), State.movedBytes_congr (h.regs _), container]
    exact ⟨_, _, rfl, rfl, .stored ..⟩
  | rdb f =>
    refine transfer_alikeFrom h rfl exec_rdb_of_order_none exec_rdb_of_outside fun hE fits hE' fits' => ?_
    rw [exec_rdb_of_fits hE fits, exec_rdb_of_fits hE' fits', State.windowBase_congr (h.regs _),
      State.windowLen_congr (h.regs _), State.movedBytes_congr (h.regs _), State.memRead_congr (h.loadedBytes f rfl)]
    exact ⟨_, _, rfl, rfl, .loaded ..⟩

/-- The same for a run that is given: the run from the other state has the same effect. -/
theorem exec_sameEffect {i : Instr} {s s' t : State} (h : SameOperands i s s') (ht : exec i s = .next t) :
    ∃ t', exec i s' = .next t' ∧ SameEffect s s' t t' := by
  obtain ⟨t₀, t', ht₀, ht', same⟩ := exec_alikeFrom h
  cases ht₀.symm.trans ht
  exact ⟨t', ht', same⟩

/-- The order of a transfer that names one does not depend on `NATIVE_ORDER` (20_memory.md R55). -/
theorem State.order_of_ne_native {e : Endian} (named : e ≠ .native) (s s' : State) : s'.order e = s.order e := by
  cases e with
  | native => exact absurd rfl named
  | little | big | reserved => rfl

/-- Error capture neither reads nor writes `NATIVE_ORDER`. -/
theorem captureError_withNativeOrder (s : State) (o : ByteOrder) (code : ErrorCode) (cmd : CmdWord) :
    State.captureError { s with nativeOrder := o } code cmd = { s.captureError code cmd with nativeOrder := o } := by
  cases h : s.err <;> simp [State.captureError, h]

/-- The same effect on `BUF`: each address holds the same byte after both runs, or keeps its byte in both. -/
theorem SameEffect.bufByte {s s' t t' : State} (h : SameEffect s s' t t') (a : Nat) :
    t.bufByte a = t'.bufByte a ∨ (t.bufByte a = s.bufByte a ∧ t'.bufByte a = s'.bufByte a) := by
  cases h with
  | raised => simp
  | result | truth | loaded => exact .inr ⟨rfl, rfl⟩
  | stored addr bytes =>
    simp only [State.writeTruth_bufByte, State.memWrite_bufByte]
    split
    · exact .inl rfl
    · exact .inr ⟨rfl, rfl⟩

theorem SameRegs.writeResult {s s' : State} (h : SameRegs s s') (rd : Reg) (n : Nat) :
    SameRegs (s.writeResult rd n) (s'.writeResult rd n) := by
  intro r
  rw [State.writeResult_eq, State.writeResult_eq, State.writeReg_reg, State.writeReg_reg, h r]

/-- The same effect on states that agree on registers, `T` and the error registers leaves them agreeing. -/
theorem SameEffect.sameVisible {s s' t t' : State} (h : SameEffect s s' t t') (regs : SameRegs s s')
    (truth : s'.tFlag = s.tFlag) (errors : SameErrors s s') :
    SameRegs t t' ∧ t'.tFlag = t.tFlag ∧ SameErrors t t' := by
  cases h with
  | raised =>
    obtain ⟨err, ecode, ecmd⟩ := errors
    simp [SameRegs, SameErrors, regs _, truth, err, ecode, ecmd]
  | result rd n => exact ⟨regs.writeResult rd n, truth, errors⟩
  | truth => exact ⟨regs, rfl, errors⟩
  | stored => exact ⟨regs, rfl, errors⟩
  | loaded rd n => exact ⟨regs.writeResult rd n, rfl, errors⟩

/-- Only WRB changes a byte of `BUF` (20_memory.md R51). -/
theorem CommandOutcome.sameBuf {i : Instr} {s t : State} (h : CommandOutcome i s t) (notWrb : ∀ f, i ≠ .wrb f) :
    SameBuf s t := by
  intro a
  cases h with
  | illTyped | windowOutside => simp
  | result | truth | loaded => rfl
  | stored _ isWrb => exact absurd isWrb (notWrb _)

end Sys2Proof.Machine

/-! SUPPORT. What the host has still to issue plays no part in serving a transaction (20_memory.md R60). -/

namespace Sys2Proof.Machine

open Sys2Proof.Claims

/-- Error capture neither reads nor writes the host's list. -/
theorem captureError_afterTaking (s : State) (rest : List HostTxn) (code : ErrorCode) (cmd : CmdWord) :
    (afterTaking s rest).captureError code cmd = afterTaking (s.captureError code cmd) rest := by
  cases h : s.err <;> simp [State.captureError, afterTaking, h]

theorem exec_afterTaking {i : Instr} {s t : State} (h : exec i s = .next t) (rest : List HostTxn) :
    exec i (afterTaking s rest) = .next (afterTaking t rest) := by
  have agree : SameOperands i s (afterTaking s rest) := ⟨fun _ => rfl, rfl, fun _ _ => rfl, fun _ _ _ => rfl⟩
  obtain ⟨t', ht', same⟩ := exec_sameEffect agree h
  rw [ht']
  cases same with
  | raised code cmd => rw [captureError_afterTaking]
  | result | truth | stored | loaded => rfl

theorem issueCommand_afterTaking {cmd : CmdWord} {s t : State} (h : issueCommand cmd s = .next t)
    (rest : List HostTxn) : issueCommand cmd (afterTaking s rest) = .next (afterTaking t rest) := by
  cases decoded : decode cmd with
  | ok i =>
    rw [issueCommand_of_ok decoded] at h ⊢
    exact exec_afterTaking h rest
  | error e =>
    rw [issueCommand_of_error decoded] at h ⊢
    cases h
    rw [captureError_afterTaking]

theorem hostRegWrite_afterTaking {i : Fin 16} {d : Word} {s t : State} (h : hostRegWrite i d s = .next t)
    (rest : List HostTxn) : hostRegWrite i d (afterTaking s rest) = .next (afterTaking t rest) := by
  obtain isReg | rfl | rfl | readOnly : i.val < 8 ∨ i = 8 ∨ i = 9 ∨ 10 ≤ i.val := by omega
  · rw [hostRegWrite_reg isReg] at h ⊢
    cases h
    rfl
  · exact issueCommand_afterTaking h rest
  · rw [hostRegWrite_status] at h ⊢
    split at h
    next set =>
      cases h
      exact if_pos set
    next clear =>
      cases h
      exact if_neg clear
  · rw [hostRegWrite_ignored readOnly] at h ⊢
    cases h
    rfl

/-- Serving a transaction commutes with a change of what the host has still to issue. -/
theorem serve_afterTaking {txn : HostTxn} {s t : State} (h : serve txn s = .next t) (rest : List HostTxn) :
    serve txn (afterTaking s rest) = .next (afterTaking t rest) := by
  cases txn with
  | regRead | reset =>
    cases h
    rfl
  | regWrite => exact hostRegWrite_afterTaking h rest
  | bufRead a | bufWrite a v =>
    have inBuf : a < s.bufBytes := (serve_completes_iff _ s).1 ⟨t, h⟩
    cases (if_pos inBuf).symm.trans h
    exact if_pos inBuf

/-- No transaction adds to the host's list or takes from it. -/
theorem ServeOutcome.pending_eq {s t : State} {txn : HostTxn} (h : ServeOutcome s txn t) :
    t.pending = s.pending := by
  cases h with
  | command d decoded ran =>
    obtain ⟨-, -, -, pending, -⟩ := ran.sameSurroundings
    exact pending
  | reservedOpcode => simp
  | regRead | regWrite | errorCleared | errorKept | ignored | bufRead | bufWrite | reset => rfl

end Sys2Proof.Machine

/-! CERTIFICATE. The statements about what does not influence a step (20_memory.md R51, R60, 44_byte_transfer.md
R238). -/

namespace Sys2Proof.Proofs

open Sys2Proof.Machine Sys2Proof.Claims

/-- Settles O43: with its order named, a command's operands are the same for both values of `NATIVE_ORDER`. -/
theorem explicitOrderIgnoresNativeOrder : Obligations.ExplicitOrderIgnoresNativeOrder := by
  intro i s t o named ht
  have agree : SameOperands i s { s with nativeOrder := o } :=
    ⟨fun _ => rfl, rfl, fun f hf => State.order_of_ne_native (named f hf) _ _, fun _ _ _ => rfl⟩
  obtain ⟨t', ht', same⟩ := exec_sameEffect agree ht
  rw [ht']
  cases same with
  | raised code cmd => rw [captureError_withNativeOrder]
  | result | truth | stored | loaded => rfl

/-- Settles O51: the frame is `CommandOutcome.sameBuf`, and by `exec_sameEffect` a command that is no RDB has one effect
over any two contents of `BUF`. -/
theorem onlyTransfersReachBuf : Obligations.OnlyTransfersReachBuf := by
  refine ⟨fun i s t notWrb ht => (CommandOutcome.of_exec ht).sameBuf notWrb, fun i s t m k notRdb ht => ?_⟩
  have agree : SameOperands i s { s with buf := m, resets := k } :=
    ⟨fun _ => rfl, rfl, fun _ _ => rfl, fun f hf => absurd hf (notRdb f)⟩
  obtain ⟨t', ht', same⟩ := exec_sameEffect agree ht
  obtain ⟨regs, truth, errors⟩ := same.sameVisible (fun _ => rfl) rfl (SameErrors.refl s)
  exact ⟨t', ht', regs, truth, errors, same.bufByte⟩

/-- Settles O8: a step is the service of the oldest transaction, which commutes with `afterTaking`. -/
theorem laterTransactionsDoNotInfluence : Obligations.LaterTransactionsDoNotInfluence := by
  intro s t txn rest rest' hp ht
  rw [step_of_pending_cons hp] at ht
  have inBuf := (serve_completes_iff txn _).1 ⟨t, ht⟩
  exact ⟨(of_exists_next (serve_outcome inBuf) ht).pending_eq, serve_afterTaking ht rest'⟩

end Sys2Proof.Proofs

/-! SUPPORT. The other direction of the encoding: the fields of a word, put together again, are the word (30_encoding.md
R80 to R84), and the decoder refuses the opcodes that R91 lists and no others (`decode_cases`). -/

namespace Sys2Proof

open Sys2Proof.Claims

/-- Two adjacent fields of a word are one field. The width of the concatenation is left to unification, as in
`extractLsb'_append_high`. -/
theorem extractLsb'_append_adjacent (cmd : CmdWord) {hi lo len len' : Nat} (adjacent : hi = lo + len) :
    HAppend.hAppend (γ := no_index _) (cmd.extractLsb' hi len') (cmd.extractLsb' lo len) =
      cmd.extractLsb' lo (len' + len) := by
  rw [BitVec.extractLsb'_append_extractLsb'_eq_extractLsb' adjacent]

@[simp] theorem code_widthOfCode (c : BitVec 2) : (widthOfCode c).code = c := by
  revert c; decide

@[simp] theorem code_endianOfCode (c : BitVec 2) : (endianOfCode c).code = c := by
  revert c; decide

@[simp] theorem Reg.code_regField (lo : Nat) (cmd : CmdWord) : Reg.code (regField lo cmd) = cmd.extractLsb' lo 3 := rfl

section Fields

variable {cmd : CmdWord} {op : Byte}

theorem encodeB_decodeB (hop : (opField cmd).toNat = op.toNat) : encodeB op (decodeB cmd) = cmd := by
  obtain rfl := BitVec.eq_of_toNat_eq hop
  simp (disch := omega) only [encodeB, decodeB, opField, widthField, code_widthOfCode, Reg.code_regField,
    extractLsb'_append_adjacent]
  exact BitVec.extractLsb'_eq_self

theorem encodeC_decodeC (hop : (opField cmd).toNat = op.toNat) : encodeC op (decodeC cmd) = cmd := by
  obtain rfl := BitVec.eq_of_toNat_eq hop
  simp (disch := omega) only [encodeC, decodeC, opField, widthField, code_widthOfCode, Reg.code_regField,
    extractLsb'_append_adjacent]
  exact BitVec.extractLsb'_eq_self

theorem encodeX_decodeX (hop : (opField cmd).toNat = op.toNat) : encodeX op (decodeX cmd) = cmd := by
  obtain rfl := BitVec.eq_of_toNat_eq hop
  simp (disch := omega) only [encodeX, decodeX, opField, widthField, code_widthOfCode, code_endianOfCode,
    Reg.code_regField, extractLsb'_append_adjacent]
  exact BitVec.extractLsb'_eq_self

end Fields

/-- The opcode of the command word in the low half of a datum (10_state.md R27). -/
theorem opField_extractLsb' (d : Word) : opField (d.extractLsb' 0 32) = d.extractLsb' 24 8 :=
  BitVec.extractLsb'_extractLsb'_of_le (by decide)

/-- A word with a reserved opcode is refused, and any other word decodes to the command whose word it is. -/
theorem decode_cases (cmd : CmdWord) :
    (ReservedOpcode (opField cmd).toNat ∧ decode cmd = .error (.reservedOpcode (opField cmd))) ∨
      (¬ReservedOpcode (opField cmd).toNat ∧ ∃ i, decode cmd = .ok i ∧ encode i = cmd) := by
  unfold decode ReservedOpcode
  split
  case h_25 hop => exact .inr ⟨by omega, _, rfl, encodeC_decodeC hop⟩
  case h_26 hop | h_27 hop => exact .inr ⟨by omega, _, rfl, encodeX_decodeX hop⟩
  case h_28 =>
    refine .inl ⟨?_, rfl⟩
    simp only [imp_false] at *
    omega
  all_goals next hop => exact .inr ⟨by omega, _, rfl, encodeB_decodeB hop⟩

end Sys2Proof

/-! SUPPORT. The number of the code a command raises (60_exceptions.md R261), and that a command with 0 in its ignored
fields (30_encoding.md R89) has the same checks and the same effect. -/

namespace Sys2Proof.Machine

theorem number_raisedCode (i : Instr) :
    (raisedCode i).number = if i.wellTyped then 4 else if i.checksWidth then 2 else 3 := by
  simp only [raisedCode, apply_ite ErrorCode.number]
  rfl

@[simp] theorem wellTyped_zeroIgnored (i : Instr) : i.zeroIgnored.wellTyped = i.wellTyped := by cases i <;> rfl

@[simp] theorem checksWidth_zeroIgnored (i : Instr) : i.zeroIgnored.checksWidth = i.checksWidth := by
  cases i <;> rfl

/-- The window fields of a transfer command are none that it ignores. -/
@[simp] theorem windowOk_zeroIgnored (i : Instr) (s : State) : WindowOk i.zeroIgnored s ↔ WindowOk i s := by
  cases i with
  | wrb f | rdb f => simp [WindowOk, Instr.zeroIgnored, Instr.transfer]
  | _ f => exact Iff.rfl

@[simp] theorem raisedCode_zeroIgnored (i : Instr) : raisedCode i.zeroIgnored = raisedCode i := by
  simp [raisedCode]

/-- Two commands that make one type check alike and pass it differ in what comes after it only. -/
theorem guarded_congr {i i' : Instr} {s : State} {ill : Prop} [Decidable ill] {code : ErrorCode}
    {o : Host.Outcome State Fault Refusal} (check : i.wellTyped = false ↔ ill) (typed : i.wellTyped = true) :
    (if ill then raiseIllegal code i' s else o) = (if ill then raiseIllegal code i s else o) := by
  have passed : ¬ill := by simp [← check, typed]
  rw [if_neg passed, if_neg passed]

/-- A command that passes its checks does the same with 0 in its ignored fields (30_encoding.md R89). -/
theorem exec_zeroIgnored {i : Instr} {s : State} (typed : i.wellTyped = true) (inside : WindowOk i s) :
    exec i.zeroIgnored s = exec i s := by
  cases i with
  | getbits f | clrbits f | setbits f | fillbits f | isbitset f | setbit f | clrbit f => rfl
  | clrbitsl f | fillbitsl f | isany f | areall f | isnone f => exact guarded_congr f.listFits_eq_false typed
  | getbyte f | setbyte f | clrbyte f | fillbyte f
  | getword f | setword f | clrword f | fillword f
  | getdword f | setdword f | clrdword f | filldword f => exact guarded_congr (f.widerThan_eq_false _) typed
  | combine f => exact guarded_congr f.widthsFit_eq_false typed
  | wrb f =>
    obtain ⟨E, ⟨hE, fits⟩, -⟩ := transfer_passes (.refl _ s) rfl rfl rfl typed inside
    rw [exec_wrb_of_fits hE fits]
    exact exec_wrb_of_fits hE fits
  | rdb f =>
    obtain ⟨E, ⟨hE, fits⟩, -⟩ := transfer_passes (.refl _ s) rfl rfl rfl typed inside
    rw [exec_rdb_of_fits hE fits]
    exact exec_rdb_of_fits hE fits

/-- Error captures that differ in the word alone leave all but `ECMD` alike (60_exceptions.md R262). -/
theorem State.captureError_word (s : State) (code : ErrorCode) (cmd cmd' : CmdWord) :
    let t := s.captureError code cmd
    let t' := s.captureError code cmd'
    SameRegs t t' ∧ t'.tFlag = t.tFlag ∧ SameBuf t t' ∧ SameSurroundings t t' ∧ t'.err = t.err ∧
      t'.ecode = t.ecode := by
  simp [SameRegs, SameBuf, SameSurroundings]

end Sys2Proof.Machine

/-! SUPPORT. SETBITS and, once for every unit, the accessors bit by bit, and COMBINE as a number
(40_bitfield_primitives.md R132, 42_fixed_width_accessors.md R180 to R196, 43_combine.md R220 to R222). -/

namespace Sys2Proof.Machine

open Sys2Proof.Claims

/-- The bits of a result that fits some width (10_state.md R23). -/
theorem State.getLsbD_writeResult_of_lt {w : Width} {n : Nat} (fits : n < 2 ^ w.bits) (s : State) (rd : Reg)
    (j : Nat) : ((s.writeResult rd n).reg rd).getLsbD j = n.testBit j := by
  rw [← BitVec.testBit_toNat, State.writeResult_toNat fits]

/-- The bits of a register after a run of it has been replaced (40_bitfield_primitives.md R123). -/
theorem State.getLsbD_writeResult_setBits (s : State) (rd rs : Reg) (w : Width) (b c j : Nat) :
    ((s.writeResult rd (setBits w.bits (s.container rd w.bits) (s.fullReg rs) b c)).reg rd).getLsbD j =
      if b ≤ j ∧ j < b + c ∧ j < w.bits then (s.reg rs).getLsbD (j - b)
      else decide (j < w.bits) && (s.reg rd).getLsbD j := by
  have bounded := s.container_lt rd w.bits
  rw [State.getLsbD_writeResult_of_lt (setBits_lt bounded ..), testBit_setBits bounded, State.testBit_fullReg,
    State.testBit_container]

/-- SETBITS bit by bit (40_bitfield_primitives.md R132). -/
theorem exec_setbits_replacesRun (f : FormatB) (s : State) :
    ∃ t, exec (.setbits f) s = .next t ∧ OnlyRegWritten f.rd s t ∧
      ∀ j, (t.reg f.rd).getLsbD j =
        if f.b.toNat ≤ j ∧ j < f.b.toNat + f.c.toNat ∧ j < f.w.bits then (s.reg f.rs).getLsbD (j - f.b.toNat)
        else decide (j < f.w.bits) && (s.reg f.rd).getLsbD j :=
  ⟨_, rfl, State.writeResult_only .., s.getLsbD_writeResult_setBits f.rd f.rs f.w _ _⟩

section Accessors

variable {u : AccessUnit} {f : FormatB}

theorem exec_getAccessor (wide : unitBits u < f.w.bits) (s : State) :
    exec (getAccessor u f) s =
      .next (s.writeResult f.rd (getUnit f.w.bits (unitBits u) (s.container f.rs f.w.bits) f.b.toNat)) := by
  cases u <;> exact if_neg (Nat.not_le.2 wide)

theorem exec_setAccessor (wide : unitBits u < f.w.bits) (s : State) :
    exec (setAccessor u f) s =
      .next (s.writeResult f.rd
        (setUnit f.w.bits (unitBits u) (s.container f.rd f.w.bits) (s.fullReg f.rs) f.b.toNat)) := by
  cases u <;> exact if_neg (Nat.not_le.2 wide)

theorem exec_clrAccessor (wide : unitBits u < f.w.bits) (s : State) :
    exec (clrAccessor u f) s =
      .next (s.writeResult f.rd (clearUnit f.w.bits (unitBits u) (s.container f.rd f.w.bits) f.b.toNat)) := by
  cases u <;> exact if_neg (Nat.not_le.2 wide)

theorem exec_fillAccessor (wide : unitBits u < f.w.bits) (s : State) :
    exec (fillAccessor u f) s =
      .next (s.writeResult f.rd (fillUnit f.w.bits (unitBits u) (s.container f.rd f.w.bits) f.b.toNat)) := by
  cases u <;> exact if_neg (Nat.not_le.2 wide)

end Accessors

/-- R183, R187, R191. The model's own branch for a unit past the container is the clip to the container. -/
theorem extractsUnit_getAccessor (u : AccessUnit) : ExtractsUnit (unitBits u) (getAccessor u) := by
  intro f s wide
  refine ⟨_, exec_getAccessor wide s, State.writeResult_only .., fun j => ?_⟩
  rw [State.getLsbD_writeResult_of_lt (getUnit_lt (s.container_lt ..) ..), getUnit, testBit_getBits,
    if_neg (Nat.not_le.2 wide), State.testBit_container]
  split
  next past =>
    have outside : ¬f.b.toNat + j < f.w.bits := by omega
    simp [outside]
  next => rw [Bool.decide_and, Bool.and_assoc]

/-- R184, R188, R192. -/
theorem replacesUnit_setAccessor (u : AccessUnit) : ReplacesUnit (unitBits u) (setAccessor u) :=
  fun _ s wide => ⟨_, exec_setAccessor wide s, State.writeResult_only .., s.getLsbD_writeResult_setBits _ _ _ _ _⟩

/-- R185, R189, R193. On the bits of the container the cleared run is the whole unit. -/
theorem zeroesUnit_clrAccessor (u : AccessUnit) : ZeroesUnit (unitBits u) (clrAccessor u) := by
  intro f s wide
  refine ⟨_, exec_clrAccessor wide s, State.writeResult_only .., fun j => ?_⟩
  have bounded := s.container_lt f.rd f.w.bits
  rw [State.getLsbD_writeResult_of_lt (clearUnit_lt bounded ..), clearUnit, testBit_clearBits bounded,
    State.testBit_container]
  by_cases inside : j < f.w.bits
  · have clipped :
        (f.b.toNat < f.w.bits ∧ (unitBits u ≥ f.w.bits ∨ f.b.toNat ≤ j ∧ j < f.b.toNat + unitBits u)) ↔
          f.b.toNat ≤ j ∧ j < f.b.toNat + unitBits u := by omega
    simp only [clipped]
  · simp [inside]

/-- R186, R190, R194. -/
theorem fillsUnit_fillAccessor (u : AccessUnit) : FillsUnit (unitBits u) (fillAccessor u) := by
  intro f s wide
  refine ⟨_, exec_fillAccessor wide s, State.writeResult_only .., fun j => ?_⟩
  have bounded := s.container_lt f.rd f.w.bits
  rw [State.getLsbD_writeResult_of_lt (fillUnit_lt bounded ..), fillUnit, testBit_fillBits bounded,
    State.testBit_container]
  by_cases inside : j < f.w.bits <;> simp [inside]

/-- COMBINE as a number (43_combine.md R220): the high part counts multiples of the low part's range. -/
theorem exec_combine_toNat {f : FormatC} (wide : 2 * f.p.bits ≤ f.w.bits) (s : State) :
    ∃ t, exec (.combine f) s = .next t ∧ OnlyRegWritten f.rd s t ∧
      (t.reg f.rd).toNat =
        (s.reg f.rs).toNat % 2 ^ f.p.bits * 2 ^ f.p.bits + (s.reg f.rt).toNat % 2 ^ f.p.bits := by
  refine ⟨_, if_neg (Nat.not_lt.2 wide), State.writeResult_only .., ?_⟩
  rw [State.writeResult_toNat (combine_lt wide ..), combine, Nat.shiftLeft_eq]
  rfl

/-! The low and high forms (R98, R195). -/

theorem toNat_halfBegin (u : AccessUnit) (h : Half) :
    (halfBegin u h).toNat = if h = .low then 0 else unitBits u := by
  cases u <;> cases h <;> rfl

/-- A container wider than a unit holds two of them, so no low or high form is clipped (R195). -/
theorem two_mul_unitBits_le {u : AccessUnit} {w : Width} (wide : unitBits u < w.bits) :
    2 * unitBits u ≤ w.bits := by
  revert wide; cases u <;> cases w <;> decide

end Sys2Proof.Machine

/-! CERTIFICATE. The statements about the encoding (30_encoding.md). -/

namespace Sys2Proof.Proofs

open Sys2Proof.Machine Sys2Proof.Claims

/-- Settles O1: the decoder selects by the opcode, and each format's fields are read back. -/
theorem decodeEncodeRoundTrip : Obligations.DecodeEncodeRoundTrip := decode_encode

/-- Settles O2: a word that decodes is not one of the refused words, so its fields are those of its command. -/
theorem encodeRecoversTheWord : Obligations.EncodeRecoversTheWord := by
  intro cmd i h
  obtain ⟨-, refused⟩ | ⟨-, c, decoded, word⟩ := decode_cases cmd
  · cases h.symm.trans refused
  · cases h.symm.trans decoded
    exact word

/-- Settles O4: the step issues the low half of the datum, and `decode_cases` says which words are refused. -/
theorem reservedOpcodeRaises : Obligations.ReservedOpcodeRaises := by
  intro s d rest hp
  rw [step_of_pending_cons hp, ← opField_extractLsb']
  obtain ⟨reserved, refused⟩ | ⟨known, i, decoded, -⟩ := decode_cases (d.extractLsb' 0 32)
  · exact ⟨fun _ => ⟨_, issueCommand_of_error refused _, State.captureError_only ..⟩,
      fun known => absurd reserved known⟩
  · exact ⟨fun reserved => absurd reserved known, fun _ => ⟨i, decoded, issueCommand_of_ok decoded _⟩⟩

/-- Settles O16: an ill-typed command ends in the capture of its type check's code. -/
theorem illTypedCommandRaises : Obligations.IllTypedCommandRaises := by
  intro i s typed
  have code : raisedCode i = if i.checksWidth then .badWidth else .badField := by simp [raisedCode, typed]
  exact ⟨_, exec_of_raises (.inl typed), code ▸ s.captureError_only _ _⟩

/-- Settles O17: a command that fails a check captures `raisedCode`, any other leaves the error registers. -/
theorem raisedCodeFollowsTheOrder : Obligations.RaisedCodeFollowsTheOrder := by
  intro i s t noError ht
  have outcome := CommandOutcome.of_exec ht
  by_cases raises : i.wellTyped = false ∨ ¬WindowOk i s
  · obtain rfl := outcome.eq_captureError raises
    exact ⟨by simp [raises], fun _ => ⟨by simp [noError], by simp [noError, number_raisedCode]⟩⟩
  · obtain ⟨typed, inside⟩ : i.wellTyped = true ∧ WindowOk i s := by simpa using raises
    obtain ⟨err, -⟩ := outcome.sameErrors typed inside
    simp [err, noError, raises]

/-- Settles O45: the forms are the accessors at offset 0 and at offset U, where the unit lies inside the container. -/
theorem halfFormsReachTheirUnit : Obligations.HalfFormsReachTheirUnit := by
  intro u h w rd rs s off wide hoff
  have inside : off + unitBits u ≤ w.bits := by
    have := two_mul_unitBits_le wide
    split at hoff <;> omega
  obtain rfl : (halfBegin u h).toNat = off := (toNat_halfBegin u h).trans hoff.symm
  obtain ⟨tg, hget, onlyGet, bitsGet⟩ := extractsUnit_getAccessor u ⟨w, rd, rs, halfBegin u h, 0⟩ s wide
  obtain ⟨ts, hset, onlySet, bitsSet⟩ := replacesUnit_setAccessor u ⟨w, rd, rs, halfBegin u h, 0⟩ s wide
  refine ⟨⟨tg, hget, onlyGet, fun j => ?_⟩, ⟨ts, hset, onlySet, fun j => ?_⟩,
    zeroesUnit_clrAccessor u ⟨w, rd, 0, halfBegin u h, 0⟩ s wide,
    fillsUnit_fillAccessor u ⟨w, rd, 0, halfBegin u h, 0⟩ s wide⟩
  · have unclipped : (j < unitBits u ∧ (halfBegin u h).toNat + j < w.bits) ↔ j < unitBits u := by omega
    simpa only [unclipped] using bitsGet j
  · have unclipped : ((halfBegin u h).toNat ≤ j ∧ j < (halfBegin u h).toNat + unitBits u ∧ j < w.bits) ↔
        (halfBegin u h).toNat ≤ j ∧ j < (halfBegin u h).toNat + unitBits u := by omega
    simpa only [unclipped] using bitsSet j

/-- Settles O46: the wrappers are COMBINE with a result of twice the part, and the count of the typed SETBITS is the
width of its source's type. -/
theorem wrappersFixTheirWidths : Obligations.WrappersFixTheirWidths := by
  refine ⟨fun u rd rs rt s => ?_, fun w v rd rs b s => ?_⟩
  · cases u with
    | byte => exact exec_combine_toNat (f := ⟨.w16, rd, rs, .w8, 0, rt, 0⟩) le_rfl s
    | word => exact exec_combine_toNat (f := ⟨.w32, rd, rs, .w16, 0, rt, 0⟩) le_rfl s
    | dword => exact exec_combine_toNat (f := ⟨.w64, rd, rs, .w32, 0, rt, 0⟩) le_rfl s
  · have count : (BitVec.ofNat 8 v.bits).toNat = v.bits := by cases v <;> rfl
    simpa only [expandPseudo, count] using exec_setbits_replacesRun ⟨w, rd, rs, b, BitVec.ofNat 8 v.bits⟩ s

/-- Settles O47: a command that passes its checks does the same, and one that fails them captures the same code. -/
theorem ignoredFieldsHaveNoEffect : Obligations.IgnoredFieldsHaveNoEffect := by
  intro i s
  refine ⟨exec_zeroIgnored, ?_⟩
  by_cases raises : i.wellTyped = false ∨ ¬WindowOk i s
  · have raises' : i.zeroIgnored.wellTyped = false ∨ ¬WindowOk i.zeroIgnored s := by simpa using raises
    refine ⟨_, _, exec_of_raises raises, exec_of_raises raises', ?_⟩
    rw [raisedCode_zeroIgnored]
    exact s.captureError_word ..
  · obtain ⟨typed, inside⟩ : i.wellTyped = true ∧ WindowOk i s := by simpa using raises
    obtain ⟨t, ht, -⟩ := exec_outcome i s
    exact ⟨t, t, ht, (exec_zeroIgnored typed inside).trans ht, fun _ => rfl, rfl, fun _ => rfl,
      SameSurroundings.refl t, rfl, rfl⟩

/-- Settles O3, by running the decoder on each of the six words. -/
theorem sampleWordsDecode : Obligations.SampleWordsDecode := by
  unfold Obligations.SampleWordsDecode
  decide

end Sys2Proof.Proofs

/-! SUPPORT. The laws of the bit-run functions (40_bitfield_primitives.md R128, R137). The corner in which a run that
begins inside the container above bit 0 has a count of the width or more is excluded where GETBITS and CLRBITS do not
follow the clipped run there (R129). -/

namespace Sys2Proof.Machine

section Laws

variable {W v : Nat}

/-! What each function extracts, clears, replaces and fills (R137). -/

/-- Outside the corner of R129 an extracted run is a shift and a mask. -/
theorem getBits_eq_shiftRight_mod (hv : v < 2 ^ W) {b c : Nat} (corner : ¬(0 < b ∧ b < W ∧ W ≤ c)) :
    getBits W v b c = (v >>> b) % 2 ^ min c W := by
  unfold getBits
  split
  next past =>
    have nothing : v >>> b = 0 := Nat.shiftRight_eq_zero v b (hv.trans_le (Nat.pow_le_pow_right (by decide) past))
    rw [nothing, Nat.zero_mod]
  next =>
    split
    next whole =>
      obtain rfl : b = 0 := by omega
      rw [Nat.min_eq_right whole, Nat.shiftRight_zero, Nat.mod_eq_of_lt hv]
    next short => rw [Nat.min_eq_left (Nat.le_of_not_le short)]

/-- A run inside the container is never in the corner of R129. -/
theorem getBits_of_inside (hv : v < 2 ^ W) {b c : Nat} (inside : b + c ≤ W) :
    getBits W v b c = (v >>> b) % 2 ^ c := by
  rw [getBits_eq_shiftRight_mod hv (by omega), Nat.min_eq_left (by omega)]

theorem getBits_lt_of_count {c : Nat} (hc : c < W) (v b : Nat) : getBits W v b c < 2 ^ c := by
  refine Nat.lt_pow_two_of_testBit _ fun j hj => ?_
  simp [testBit_getBits, Nat.not_le.2 hc, Nat.not_lt.2 hj]

theorem clearBits_idem (hv : v < 2 ^ W) (b c : Nat) :
    clearBits W (clearBits W v b c) b c = clearBits W v b c := by
  refine Nat.eq_of_testBit_eq fun j => ?_
  rw [testBit_clearBits (clearBits_lt hv b c), testBit_clearBits hv, Bool.and_assoc, Bool.and_self]

theorem setBits_getBits (hv : v < 2 ^ W) {b c : Nat} (inside : b + c ≤ W) :
    setBits W v (getBits W v b c) b c = v := by
  refine Nat.eq_of_testBit_eq fun j => ?_
  rw [testBit_setBits hv, getBits_of_inside hv inside, Nat.testBit_mod_two_pow, Nat.testBit_shiftRight]
  split
  next run =>
    have counted : j - b < c := by omega
    rw [decide_eq_true counted, Bool.true_and, Nat.add_sub_cancel' run.1]
  next => rfl

theorem getBits_setBits (hv : v < 2 ^ W) (s : Nat) {b c : Nat} (inside : b + c ≤ W) :
    getBits W (setBits W v s b c) b c = s % 2 ^ c := by
  refine Nat.eq_of_testBit_eq fun j => ?_
  rw [getBits_of_inside (setBits_lt hv s b c) inside, Nat.testBit_mod_two_pow, Nat.testBit_mod_two_pow,
    Nat.testBit_shiftRight, testBit_setBits hv]
  by_cases counted : j < c
  · have run : b ≤ b + j ∧ b + j < b + c ∧ b + j < W := by omega
    rw [if_pos run, Nat.add_sub_cancel_left]
  · simp [counted]

theorem clearBits_whole (hv : v < 2 ^ W) : clearBits W v 0 W = 0 := by
  refine Nat.eq_of_testBit_eq fun j => ?_
  rw [testBit_clearBits hv, Nat.zero_testBit]
  by_cases inside : j < W
  · simp [Nat.zero_lt_of_lt inside]
  · simp [testBit_of_le hv (Nat.le_of_not_lt inside)]

theorem fillBits_whole (hv : v < 2 ^ W) : fillBits W v 0 W = ones W := by
  refine Nat.eq_of_testBit_eq fun j => ?_
  rw [testBit_fillBits hv, testBit_ones]
  by_cases inside : j < W
  · simp [inside]
  · simp [inside, testBit_of_le hv (Nat.le_of_not_lt inside)]

/-! In terms of the mask of the clipped run (R122). -/

theorem fillBits_eq_or_runMask (hv : v < 2 ^ W) (b c : Nat) : fillBits W v b c = v ||| runMask W b c := by
  refine Nat.eq_of_testBit_eq fun j => ?_
  rw [testBit_fillBits hv, Nat.testBit_or, testBit_runMask]

/-- The bits kept by the complement of the mask. -/
theorem testBit_and_notN_runMask (W v b c j : Nat) :
    (v &&& notN W (runMask W b c)).testBit j =
      (v.testBit j && (decide (j < W) && !decide (b ≤ j ∧ j < b + c ∧ j < W))) := by
  rw [Nat.testBit_and, testBit_notN (runMask_lt W b c), testBit_runMask]

/-- Outside the corner of R129 CLRBITS clears the clipped run. -/
theorem clearBits_eq_and_notN_runMask (hv : v < 2 ^ W) {b c : Nat} (corner : ¬(0 < b ∧ b < W ∧ W ≤ c)) :
    clearBits W v b c = v &&& notN W (runMask W b c) := by
  refine Nat.eq_of_testBit_eq fun j => ?_
  rw [testBit_clearBits hv, testBit_and_notN_runMask]
  by_cases inside : j < W
  · have clipped : (b < W ∧ (c ≥ W ∨ b ≤ j ∧ j < b + c)) ↔ b ≤ j ∧ j < b + c ∧ j < W := by omega
    simp only [clipped, inside, decide_true, Bool.true_and]
  · simp [testBit_of_le hv (Nat.le_of_not_lt inside)]

theorem setBits_and_notN_runMask (hv : v < 2 ^ W) (s b c : Nat) :
    setBits W v s b c &&& notN W (runMask W b c) = v &&& notN W (runMask W b c) := by
  refine Nat.eq_of_testBit_eq fun j => ?_
  rw [testBit_and_notN_runMask, testBit_and_notN_runMask, testBit_setBits hv]
  by_cases run : b ≤ j ∧ j < b + c ∧ j < W
  · simp [run]
  · rw [if_neg run]

/-! An offset past the container reaches no bit (R125 to R127). -/

theorem isBitSet_of_le {i : Nat} (past : W ≤ i) (v : Nat) : isBitSet W v i = false := by
  simp [isBitSet, Nat.not_lt.2 past]

theorem setBit_of_le {i : Nat} (past : W ≤ i) (v : Nat) : setBit W v i = v := if_neg (Nat.not_lt.2 past)

theorem clearBit_of_le {i : Nat} (past : W ≤ i) (v : Nat) : clearBit W v i = v := if_neg (Nat.not_lt.2 past)

/-! An offset and a count matter up to the width only (R128). -/

section Clamped

variable {b b' c c' : Nat}

/-- Two values that agree up to the width are equal or both beyond it. -/
theorem eq_or_le_of_min_eq {x x' : Nat} (h : min x W = min x' W) : x = x' ∨ (W ≤ x ∧ W ≤ x') := by omega

theorem getBits_congr (hb : min b W = min b' W) (hc : min c W = min c' W) (v : Nat) :
    getBits W v b c = getBits W v b' c' := by
  obtain rfl | ⟨past, past'⟩ := eq_or_le_of_min_eq hb
  · obtain rfl | ⟨whole, whole'⟩ := eq_or_le_of_min_eq hc
    · rfl
    · simp only [getBits, if_pos whole, if_pos whole']
  · rw [getBits, getBits, if_pos past, if_pos past']

theorem clearBits_congr (hv : v < 2 ^ W) (hb : min b W = min b' W) (hc : min c W = min c' W) :
    clearBits W v b c = clearBits W v b' c' := by
  refine Nat.eq_of_testBit_eq fun j => ?_
  have same : (b < W ∧ (c ≥ W ∨ b ≤ j ∧ j < b + c)) ↔ b' < W ∧ (c' ≥ W ∨ b' ≤ j ∧ j < b' + c') := by omega
  simp only [testBit_clearBits hv, same]

theorem run_congr (hb : min b W = min b' W) (hc : min c W = min c' W) (j : Nat) :
    (b ≤ j ∧ j < b + c ∧ j < W) ↔ b' ≤ j ∧ j < b' + c' ∧ j < W := by omega

theorem runMask_congr (hb : min b W = min b' W) (hc : min c W = min c' W) :
    runMask W b c = runMask W b' c' := by
  refine Nat.eq_of_testBit_eq fun j => ?_
  simp only [testBit_runMask, run_congr hb hc j]

theorem setBits_congr (hv : v < 2 ^ W) (hb : min b W = min b' W) (hc : min c W = min c' W) (s : Nat) :
    setBits W v s b c = setBits W v s b' c' := by
  refine Nat.eq_of_testBit_eq fun j => ?_
  rw [testBit_setBits hv, testBit_setBits hv]
  simp only [run_congr hb hc j]
  split
  next run =>
    obtain rfl : b = b' := by omega
    rfl
  next => rfl

theorem fillBits_congr (hv : v < 2 ^ W) (hb : min b W = min b' W) (hc : min c W = min c' W) :
    fillBits W v b c = fillBits W v b' c' := setBits_congr hv hb hc _

end Clamped

/-! Combination (43_combine.md R223). -/

section Combine

variable {P h l : Nat}

theorem combine_of_lt (hh : h < 2 ^ P) (hl : l < 2 ^ P) : combine P h l = 2 ^ P * h + l := by
  rw [combine, Nat.mod_eq_of_lt hh, Nat.mod_eq_of_lt hl, Nat.shiftLeft_eq, Nat.mul_comm]

theorem getBits_combine_low (wide : 2 * P ≤ W) (hh : h < 2 ^ P) (hl : l < 2 ^ P) :
    getBits W (combine P h l) 0 P = l := by
  rw [getBits_of_inside (combine_lt wide h l) (by omega), combine_of_lt hh hl, Nat.shiftRight_zero,
    Nat.mul_add_mod, Nat.mod_eq_of_lt hl]

theorem getBits_combine_high (wide : 2 * P ≤ W) (hh : h < 2 ^ P) (hl : l < 2 ^ P) :
    getBits W (combine P h l) P P = h := by
  rw [getBits_of_inside (combine_lt wide h l) (by omega), combine_of_lt hh hl, Nat.shiftRight_eq_div_pow,
    Nat.mul_add_div (Nat.two_pow_pos P), Nat.div_eq_of_lt hl, Nat.add_zero, Nat.mod_eq_of_lt hh]

/-- SET of each part into an empty container; the bits of the parts above `P` do not take part. -/
theorem setBits_setBits_eq_combine (wide : 2 * P ≤ W) (h l : Nat) :
    setBits W (setBits W 0 l 0 P) h P P = combine P h l := by
  have empty : 0 < 2 ^ W := Nat.two_pow_pos W
  refine Nat.eq_of_testBit_eq fun j => ?_
  rw [testBit_setBits (setBits_lt empty ..), testBit_setBits empty, testBit_combine, Nat.zero_testBit]
  by_cases low : j < P
  · have notHigh : ¬P ≤ j := Nat.not_le.2 low
    have inside : j < W := by omega
    simp [low, notHigh, inside]
  · have high : (P ≤ j ∧ j < P + P ∧ j < W) ↔ j < 2 * P := by omega
    simp only [high, low]
    split <;> simp [*]

end Combine

end Laws

end Sys2Proof.Machine

/-! CERTIFICATE. The statements about the bit-field primitives and the laws of their functions
(40_bitfield_primitives.md, 43_combine.md R223). -/

namespace Sys2Proof.Proofs

open Sys2Proof.Machine

/-- Settles O19: the bits of an extracted run, read from a container whose bits are the register's low ones. -/
theorem getbitsExtractsRun : Obligations.GetbitsExtractsRun := by
  intro f s
  refine ⟨⟨_, rfl, State.writeResult_only .., fun j => ?_⟩, decode_encode (.getbits f)⟩
  rw [State.getLsbD_writeResult_of_lt (getBits_lt (s.container_lt ..) ..), testBit_getBits]
  simp only [State.testBit_container, Bool.decide_and, Bool.and_assoc]

/-- Settles O20. -/
theorem clrbitsZeroesRun : Obligations.ClrbitsZeroesRun := by
  intro f s
  refine ⟨⟨_, rfl, State.writeResult_only .., fun j => ?_⟩, decode_encode (.clrbits f)⟩
  have bounded := s.container_lt f.rd f.w.bits
  rw [State.getLsbD_writeResult_of_lt (clearBits_lt bounded ..), testBit_clearBits bounded, State.testBit_container]

/-- Settles O21. -/
theorem setbitsReplacesRun : Obligations.SetbitsReplacesRun :=
  fun f s => ⟨exec_setbits_replacesRun f s, decode_encode (.setbits f)⟩

/-- Settles O22: on the bits of the container the clipped run is the whole run. -/
theorem fillbitsSetsRun : Obligations.FillbitsSetsRun := by
  intro f s
  refine ⟨⟨_, rfl, State.writeResult_only .., fun j => ?_⟩, decode_encode (.fillbits f)⟩
  have bounded := s.container_lt f.rd f.w.bits
  rw [State.getLsbD_writeResult_of_lt (fillBits_lt bounded ..), testBit_fillBits bounded, State.testBit_container]
  by_cases inside : j < f.w.bits <;> simp [inside]

/-- Settles O23. -/
theorem isbitsetTestsBit : Obligations.IsbitsetTestsBit := by
  intro f s
  refine ⟨⟨_, rfl, State.writeTruth_only .., ?_⟩, decode_encode (.isbitset f)⟩
  rw [State.writeTruth_tFlag, isBitSet_eq, State.testBit_container, Bool.and_self_left]

/-- Settles O24: an offset past the container is no bit of it. -/
theorem setbitSetsOneBit : Obligations.SetbitSetsOneBit := by
  intro f s
  refine ⟨⟨_, rfl, State.writeResult_only .., fun j => ?_⟩, decode_encode (.setbit f)⟩
  rw [State.getLsbD_writeResult_of_lt (setBit_lt (s.container_lt ..) _), testBit_setBit, State.testBit_container]
  by_cases inside : j < f.w.bits <;> simp [inside]

/-- Settles O25. -/
theorem clrbitClearsOneBit : Obligations.ClrbitClearsOneBit := by
  intro f s
  refine ⟨⟨_, rfl, State.writeResult_only .., fun j => ?_⟩, decode_encode (.clrbit f)⟩
  have bounded := s.container_lt f.rd f.w.bits
  rw [State.getLsbD_writeResult_of_lt (clearBit_lt bounded _), testBit_clearBit bounded, State.testBit_container]

/-- Settles O38: each law is one of the lemmas above. -/
theorem primitiveLawsOfTheSource : Obligations.PrimitiveLawsOfTheSource := by
  intro W v hv
  have mask (b c : Nat) (inside : b + c ≤ W) : getBits W v b c = (v >>> b) &&& ((1 <<< c) - 1) := by
    rw [getBits_of_inside hv inside, Nat.one_shiftLeft, Nat.and_two_pow_sub_one_eq_mod]
  have getWhole : getBits W v 0 (W + 1) = v := by
    rw [getBits_eq_shiftRight_mod hv (by omega), Nat.min_eq_right (by omega), Nat.shiftRight_zero,
      Nat.mod_eq_of_lt hv]
  exact ⟨fun b c hc => getBits_lt_of_count hc v b, mask, clearBits_idem hv, fun _ _ => setBits_getBits hv,
    ⟨getWhole, clearBits_whole hv, fillBits_whole hv⟩, fun _ => if_pos le_rfl, isBitSet_of_le le_rfl v,
    fun _ past => ⟨setBit_of_le past v, clearBit_of_le past v⟩, fillBits_eq_or_runMask hv,
    fun _ _ => clearBits_eq_and_notN_runMask hv, fun _ _ corner _ => getBits_eq_shiftRight_mod hv corner,
    setBits_and_notN_runMask hv, fun s _ _ inside _ => getBits_setBits hv s inside⟩

/-- Settles O39: each replacement keeps the offset and the count up to the width, and the functions depend on no
more. -/
theorem onlyClampedOffsetsMatter : Obligations.OnlyClampedOffsetsMatter := by
  intro W v s b c hv
  refine ⟨fun b' past past' => ?_, fun c' whole whole' => ?_, fun narrow => ?_⟩
  · have hb : min b W = min b' W := by omega
    exact ⟨getBits_congr hb rfl v, clearBits_congr hv hb rfl, runMask_congr hb rfl, setBits_congr hv hb rfl s,
      fillBits_congr hv hb rfl, (isBitSet_of_le past v).trans (isBitSet_of_le past' v).symm,
      (setBit_of_le past v).trans (setBit_of_le past' v).symm,
      (clearBit_of_le past v).trans (clearBit_of_le past' v).symm⟩
  · have hc : min c W = min c' W := by omega
    exact ⟨getBits_congr rfl hc v, clearBits_congr hv rfl hc, runMask_congr rfl hc, setBits_congr hv rfl hc s,
      fillBits_congr hv rfl hc⟩
  · have hb : min b W = min (min b 255) W := by omega
    have hc : min c W = min (min c 255) W := by omega
    exact ⟨getBits_congr hb hc v, clearBits_congr hv hb hc, setBits_congr hv hb hc s, fillBits_congr hv hb hc⟩

/-- Settles O40. -/
theorem combineInvertsTheGetters : Obligations.CombineInvertsTheGetters :=
  fun _ _ h l hh hl wide => ⟨getBits_combine_low wide hh hl, getBits_combine_high wide hh hl,
    setBits_setBits_eq_combine wide h l⟩

end Sys2Proof.Proofs

/-! SUPPORT. Index lists: which indices an operand lists (41_bit_lists.md R160), the list functions as functions of the
set of indices and piece by piece (R161 to R163, R169), and a list that is too long (30_encoding.md R93). -/

namespace Sys2Proof.Machine

open Sys2Proof.Claims

/-- The operand lists the first `c` bytes of the full source register (41_bit_lists.md R160). -/
theorem State.mem_indices (s : State) (f : FormatB) (j : Nat) : j ∈ s.indices f ↔ Listed f s j := by
  simp only [State.indices, mem_indexList, State.fullReg, Listed, BitVec.extractLsb'_toNat, Nat.reducePow]

/-- A bit in range is set in the container exactly if it is set in the register (10_state.md R22). -/
theorem State.inRange_testBit_container (s : State) (r : Reg) (width j : Nat) :
    (j < width ∧ (s.container r width).testBit j = true) ↔ j < width ∧ (s.reg r).getLsbD j = true := by
  rw [State.testBit_container, Bool.and_eq_true, decide_eq_true_iff, and_self_left]

/-- The list commands make one type check, that of the count, and it is no width check. -/
theorem longListRaises {mk : FormatB → Instr} (check : ∀ f, (mk f).wellTyped = f.listFits)
    (noWidth : ∀ f, (mk f).checksWidth = false) : LongListRaises mk := by
  intro f s long
  have typed : (mk f).wellTyped = false := (check f).trans (f.listFits_eq_false.2 long)
  have code : raisedCode (mk f) = .badField := by simp [raisedCode, typed, noWidth]
  exact ⟨_, exec_of_raises (.inl typed), code ▸ s.captureError_only _ _⟩

section Lists

variable {W v : Nat} {I J : List Nat}

/-! Lists with the same members. -/

theorem clearList_congr (hv : v < 2 ^ W) (same : ∀ i, i ∈ I ↔ i ∈ J) : clearList W v I = clearList W v J := by
  refine Nat.eq_of_testBit_eq fun j => ?_
  simp only [testBit_clearList hv, same]

theorem fillList_congr (same : ∀ i, i ∈ I ↔ i ∈ J) : fillList W v I = fillList W v J := by
  refine Nat.eq_of_testBit_eq fun j => ?_
  simp only [testBit_fillList, same]

theorem isAny_congr (same : ∀ i, i ∈ I ↔ i ∈ J) : isAny W v I = isAny W v J := by
  rw [Bool.eq_iff_iff]
  simp only [isAny_iff, same]

theorem areAll_congr (same : ∀ i, i ∈ I ↔ i ∈ J) : areAll W v I = areAll W v J := by
  rw [Bool.eq_iff_iff]
  simp only [areAll_iff, same]

theorem isNone_congr (same : ∀ i, i ∈ I ↔ i ∈ J) : isNone W v I = isNone W v J :=
  congrArg (! ·) (isAny_congr same)

/-! A list in two pieces. -/

variable (W v I J)

theorem clearList_append : clearList W v (I ++ J) = clearList W (clearList W v I) J := List.foldl_append

theorem fillList_append : fillList W v (I ++ J) = fillList W (fillList W v I) J := List.foldl_append

theorem isAny_append : isAny W v (I ++ J) = (isAny W v I || isAny W v J) := List.any_append

theorem areAll_append : areAll W v (I ++ J) = (areAll W v I && areAll W v J) := List.all_append

theorem isNone_append : isNone W v (I ++ J) = (isNone W v I && isNone W v J) := by
  simp only [isNone, isAny_append, Bool.not_or]

end Lists

end Sys2Proof.Machine

/-! CERTIFICATE. The statements about the bit-index lists (41_bit_lists.md). -/

namespace Sys2Proof.Proofs

open Sys2Proof.Machine

/-- Settles O26: the kept bits are those of the container that are not listed. -/
theorem clrbitslClearsListedBits : Obligations.ClrbitslClearsListedBits := by
  refine ⟨fun f s short => ⟨_, if_neg (Nat.not_lt.2 short), State.writeResult_only .., fun j => ?_⟩,
    longListRaises (fun _ => rfl) (fun _ => rfl), fun f => decode_encode (.clrbitsl f)⟩
  have bounded := s.container_lt f.rd f.w.bits
  rw [State.getLsbD_writeResult_of_lt (clearList_lt bounded _), testBit_clearList bounded, State.testBit_container]
  simp [State.mem_indices, and_assoc]

/-- Settles O27: a listed index past the container sets nothing, so the bits set are bits of the container. -/
theorem fillbitslSetsListedBits : Obligations.FillbitslSetsListedBits := by
  refine ⟨fun f s short => ⟨_, if_neg (Nat.not_lt.2 short), State.writeResult_only .., fun j => ?_⟩,
    longListRaises (fun _ => rfl) (fun _ => rfl), fun f => decode_encode (.fillbitsl f)⟩
  rw [State.getLsbD_writeResult_of_lt (fillList_lt (s.container_lt ..) _), testBit_fillList, State.testBit_container]
  by_cases inside : j < f.w.bits <;> simp [inside, State.mem_indices]

/-- Settles O28. -/
theorem isanyTestsForSomeBit : Obligations.IsanyTestsForSomeBit := by
  refine ⟨fun f s short => ⟨_, if_neg (Nat.not_lt.2 short), State.writeTruth_only .., ?_⟩,
    longListRaises (fun _ => rfl) (fun _ => rfl), fun f => decode_encode (.isany f)⟩
  simp only [State.writeTruth_tFlag, isAny_iff, State.inRange_testBit_container, State.mem_indices]

/-- Settles O29. -/
theorem areallTestsForEveryBit : Obligations.AreallTestsForEveryBit := by
  refine ⟨fun f s short => ⟨_, if_neg (Nat.not_lt.2 short), State.writeTruth_only .., ?_⟩,
    longListRaises (fun _ => rfl) (fun _ => rfl), fun f => decode_encode (.areall f)⟩
  simp only [State.writeTruth_tFlag, areAll_iff, State.inRange_testBit_container, State.mem_indices]

/-- Settles O30. -/
theorem isnoneTestsForNoBit : Obligations.IsnoneTestsForNoBit := by
  refine ⟨fun f s short => ⟨_, if_neg (Nat.not_lt.2 short), State.writeTruth_only .., ?_⟩,
    longListRaises (fun _ => rfl) (fun _ => rfl), fun f => decode_encode (.isnone f)⟩
  simp only [State.writeTruth_tFlag, isNone_iff, State.inRange_testBit_container, State.mem_indices]

/-- Settles O44: the functions see of a list its members alone, and a longer list is the pieces one after another. -/
theorem indexListsActAsSets : Obligations.IndexListsActAsSets := by
  intro W v I J hv
  refine ⟨fun same => ?_, ?_⟩
  · exact ⟨clearList_congr hv same, fillList_congr same, isAny_congr same, areAll_congr same, isNone_congr same⟩
  · exact ⟨clearList_append W v I J, fillList_append W v I J, isAny_append W v I J, areAll_append W v I J,
      isNone_append W v I J⟩

end Sys2Proof.Proofs

/-! SUPPORT. An accessor whose container is not wider than its unit (30_encoding.md R92, 42_fixed_width_accessors.md
R181). -/

namespace Sys2Proof.Machine

open Sys2Proof.Claims

/-- The accessors make one type check, that of the container against the unit, and it is a width check. -/
theorem narrowContainerRaises {U : Nat} {mk : FormatB → Instr} (check : ∀ f, (mk f).wellTyped = f.widerThan U)
    (onWidth : ∀ f, (mk f).checksWidth = true) : NarrowContainerRaises U mk := by
  intro f s narrow
  have typed : (mk f).wellTyped = false := (check f).trans ((f.widerThan_eq_false U).2 narrow)
  have code : raisedCode (mk f) = .badWidth := by simp [raisedCode, typed, onWidth]
  exact ⟨_, exec_of_raises (.inl typed), code ▸ s.captureError_only _ _⟩

end Sys2Proof.Machine

/-! CERTIFICATE. The statements about the fixed-width accessors (42_fixed_width_accessors.md). Each names a meaning
proved once for every unit, the one check of the accessors, and the round trip of the encoding. -/

namespace Sys2Proof.Proofs

open Sys2Proof.Machine

/-- Settles O31, one line per unit. -/
theorem getAccessorsExtractUnit : Obligations.GetAccessorsExtractUnit := by
  refine ⟨⟨extractsUnit_getAccessor .byte, ?_, fun f => decode_encode (.getbyte f)⟩,
    ⟨extractsUnit_getAccessor .word, ?_, fun f => decode_encode (.getword f)⟩,
    ⟨extractsUnit_getAccessor .dword, ?_, fun f => decode_encode (.getdword f)⟩⟩
  all_goals exact narrowContainerRaises (fun _ => rfl) (fun _ => rfl)

/-- Settles O32, one line per unit. -/
theorem setAccessorsReplaceUnit : Obligations.SetAccessorsReplaceUnit := by
  refine ⟨⟨replacesUnit_setAccessor .byte, ?_, fun f => decode_encode (.setbyte f)⟩,
    ⟨replacesUnit_setAccessor .word, ?_, fun f => decode_encode (.setword f)⟩,
    ⟨replacesUnit_setAccessor .dword, ?_, fun f => decode_encode (.setdword f)⟩⟩
  all_goals exact narrowContainerRaises (fun _ => rfl) (fun _ => rfl)

/-- Settles O33, one line per unit. -/
theorem clrAccessorsZeroUnit : Obligations.ClrAccessorsZeroUnit := by
  refine ⟨⟨zeroesUnit_clrAccessor .byte, ?_, fun f => decode_encode (.clrbyte f)⟩,
    ⟨zeroesUnit_clrAccessor .word, ?_, fun f => decode_encode (.clrword f)⟩,
    ⟨zeroesUnit_clrAccessor .dword, ?_, fun f => decode_encode (.clrdword f)⟩⟩
  all_goals exact narrowContainerRaises (fun _ => rfl) (fun _ => rfl)

/-- Settles O34, one line per unit. -/
theorem fillAccessorsSetUnit : Obligations.FillAccessorsSetUnit := by
  refine ⟨⟨fillsUnit_fillAccessor .byte, ?_, fun f => decode_encode (.fillbyte f)⟩,
    ⟨fillsUnit_fillAccessor .word, ?_, fun f => decode_encode (.fillword f)⟩,
    ⟨fillsUnit_fillAccessor .dword, ?_, fun f => decode_encode (.filldword f)⟩⟩
  all_goals exact narrowContainerRaises (fun _ => rfl) (fun _ => rfl)

end Sys2Proof.Proofs

/-! SUPPORT. COMBINE bit by bit, and a result too narrow for two parts (43_combine.md R221). -/

namespace Sys2Proof.Machine

open Sys2Proof.Claims

/-- COMBINE bit by bit (43_combine.md R221): bits `P` and up of both sources are ignored. -/
theorem exec_combine_concatenatesParts {f : FormatC} (wide : 2 * f.p.bits ≤ f.w.bits) (s : State) :
    ∃ t, exec (.combine f) s = .next t ∧ OnlyRegWritten f.rd s t ∧
      ∀ j, (t.reg f.rd).getLsbD j =
        if j < f.p.bits then (s.reg f.rt).getLsbD j
        else decide (j < 2 * f.p.bits) && (s.reg f.rs).getLsbD (j - f.p.bits) := by
  refine ⟨_, if_neg (Nat.not_lt.2 wide), State.writeResult_only .., fun j => ?_⟩
  rw [State.getLsbD_writeResult_of_lt (combine_lt wide ..), testBit_combine, State.testBit_fullReg,
    State.testBit_fullReg]

/-- The one type check of COMBINE, and it is a width check (30_encoding.md R92). -/
theorem exec_combine_of_narrow {f : FormatC} (narrow : f.w.bits < 2 * f.p.bits) (s : State) :
    exec (.combine f) s = raiseIllegal .badWidth (.combine f) s := if_pos narrow

end Sys2Proof.Machine

/-! CERTIFICATE. The statement about the combination helper (43_combine.md). -/

namespace Sys2Proof.Proofs

open Sys2Proof.Machine

/-- Settles O35: the two widths decide between the result bit by bit and the capture of BAD_WIDTH. -/
theorem combineConcatenatesParts : Obligations.CombineConcatenatesParts := by
  intro f s
  refine ⟨fun wide => exec_combine_concatenatesParts wide s, fun narrow => ?_, decode_encode (.combine f)⟩
  rw [exec_combine_of_narrow narrow]
  exact raiseIllegal_next ..

end Sys2Proof.Proofs

/-! SUPPORT. Which byte a transfer puts at each address of its window and which bit it puts at each place of its result,
in either byte order (44_byte_transfer.md R231, R232), and a transfer that raises (30_encoding.md R95). -/

namespace Sys2Proof.Machine

open Sys2Proof.Claims

theorem byteAt_lt {m k : Nat} (h : k < m) (E : ByteOrder) : byteAt E m k < m := by
  cases E <;> simp only [byteAt] <;> omega

/-- Byte `k` of a serialised value, in either order (20_memory.md R54). -/
theorem getElem_ser {m k : Nat} (h : k < m) (E : ByteOrder) (t : Nat) :
    (ser E t m)[k]'(by simpa using h) = BitVec.ofNat 8 (t >>> (8 * byteAt E m k)) := by
  cases E with
  | little => exact getElem_ser_little t m k h
  | big => exact getElem_ser_big t m k h

/-- A byte of a number below a cut is not changed by the cut. -/
theorem ofNat_mod_shiftRight {lo n : Nat} (inside : lo + 8 ≤ n) (t : Nat) :
    BitVec.ofNat 8 ((t % 2 ^ n) >>> lo) = BitVec.ofNat 8 (t >>> lo) := by
  refine BitVec.eq_of_getLsbD_eq fun j hj => ?_
  have bit : lo + j < n := by omega
  simp only [getLsbD_ofNat_shiftRight, Nat.testBit_mod_two_pow, bit, decide_true, Bool.true_and]

/-- WRB's byte at window offset `k` is a byte of its source register (44_byte_transfer.md R231): the bytes that move
are all inside the value's width. -/
theorem State.getElem_bytesToWrite {s : State} {f : FormatX} {k : Nat} (h : k < s.movedBytes f) (E : ByteOrder) :
    (bytesToWrite (s.container f.rs f.w.bits) (s.movedBytes f) E)[k]'(by simpa using h) =
      (s.reg f.rs).extractLsb' (8 * byteAt E (s.movedBytes f) k) 8 := by
  have inMoved : 8 * byteAt E (s.movedBytes f) k + 8 ≤ 8 * s.movedBytes f := by
    have := byteAt_lt h E
    omega
  calc (bytesToWrite (s.container f.rs f.w.bits) (s.movedBytes f) E)[k]'(by simpa using h)
      = BitVec.ofNat 8 ((s.container f.rs f.w.bits % 2 ^ (8 * s.movedBytes f)) >>>
          (8 * byteAt E (s.movedBytes f) k)) := getElem_ser h E _
    _ = BitVec.ofNat 8 (s.container f.rs f.w.bits >>> (8 * byteAt E (s.movedBytes f) k)) :=
        ofNat_mod_shiftRight inMoved _
    _ = (s.reg f.rs).extractLsb' (8 * byteAt E (s.movedBytes f) k) 8 :=
        s.ofNat_container_shiftRight f.rs (inMoved.trans (s.movedBytes_bits_le f))

/-- Bit `j` of the number a byte sequence spells is bit `j % 8` of the byte of weight `j / 8` (20_memory.md R54). -/
theorem testBit_valueRead {bytes : List Byte} {j : Nat} (inside : j / 8 < bytes.length) (E : ByteOrder) :
    (valueRead bytes E).testBit j =
      (bytes[byteAt E bytes.length (j / 8)]'(byteAt_lt inside E)).getLsbD (j % 8) := by
  cases E with
  | little => rw [valueRead, deser, testBit_deserLittle, List.getD_eq_getElem _ _ inside]; rfl
  | big =>
    rw [valueRead, deser, testBit_deserLittle, List.getD_eq_getElem _ _ (by simpa using inside), List.getElem_reverse]
    rfl

/-- Every bit of the number that a range of `BUF` spells: those of its bytes, and 0 above (44_byte_transfer.md R232). -/
theorem State.testBit_valueRead_memRead (s : State) (addr m : Nat) (E : ByteOrder) (j : Nat) :
    (valueRead (s.memRead addr m) E).testBit j =
      (decide (j < 8 * m) && (s.bufByte (addr + byteAt E m (j / 8))).getLsbD (j % 8)) := by
  by_cases inside : j < 8 * m
  · have byte : j / 8 < m := by omega
    rw [testBit_valueRead (by simpa using byte)]
    simp only [State.length_memRead, State.getElem_memRead _ _ _ _ (byteAt_lt byte E), inside, decide_true,
      Bool.true_and]
  · have small := valueRead_lt (s.memRead addr m) E
    rw [State.length_memRead] at small
    simp only [testBit_of_le small (Nat.not_lt.1 inside), inside, decide_false, Bool.false_and]

/-- The transfer commands check the endianness code, which is no width check, and then the window. -/
theorem badTransferRaises {mk : FormatX → Instr} (window : ∀ f, (mk f).transfer = some f)
    (check : ∀ f, (mk f).wellTyped = f.orderNamed) (noWidth : ∀ f, (mk f).checksWidth = false) :
    BadTransferRaises mk := by
  intro f s
  refine ⟨fun unnamed => ?_, fun named outside => ?_⟩
  · have typed : (mk f).wellTyped = false := by simp [check, FormatX.orderNamed, unnamed]
    have code : raisedCode (mk f) = .badField := by simp [raisedCode, typed, noWidth]
    exact ⟨_, exec_of_raises (.inl typed), code ▸ s.captureError_only _ _⟩
  · have typed : (mk f).wellTyped = true := by simp [check, FormatX.orderNamed, named]
    have code : raisedCode (mk f) = .bufRange := by simp [raisedCode, typed]
    have leaves : ¬WindowOk (mk f) s := by
      rw [windowOk_iff (window f), s.windowFits_iff]
      exact Nat.not_le.2 outside
    exact ⟨_, exec_of_raises (.inr leaves), code ▸ s.captureError_only _ _⟩

end Sys2Proof.Machine

/-! CERTIFICATE. The statements about byte-buffer transfer (44_byte_transfer.md). -/

namespace Sys2Proof.Proofs

open Sys2Proof.Machine

/-- Settles O36: WRB is one `MemWrite` of the moved bytes and one write of `T`, so an address in the moved range holds
the byte stored for its offset and every other one what it held. -/
theorem wrbWritesLowBytesInOrder : Obligations.WrbWritesLowBytesInOrder := by
  refine ⟨fun f s E order window => ?_, badTransferRaises (fun _ => rfl) (fun _ => rfl) (fun _ => rfl),
    fun f => decode_encode (.wrb f)⟩
  set stored := bytesToWrite (s.container f.rs f.w.bits) (s.movedBytes f) E
  obtain ⟨regs, -, errors, surroundings⟩ := s.memWrite_rest (s.windowBase f) stored
  refine ⟨_, exec_wrb_of_fits (order_of_selectsOrder order) ((s.windowFits_iff f).2 window), regs, errors,
    surroundings, rfl, fun a => ?_⟩
  rw [State.writeTruth_bufByte, State.memWrite_bufByte]
  simp only [length_bytesToWrite]
  split
  next inside => exact State.getElem_bytesToWrite (by omega) E
  next => rfl

/-- Settles O37: RDB is one result write and one write of `T`, and the result is the number its bytes spell, which fits
the command's width. -/
theorem rdbReadsNumberInOrder : Obligations.RdbReadsNumberInOrder := by
  refine ⟨fun f s E order window => ?_, badTransferRaises (fun _ => rfl) (fun _ => rfl) (fun _ => rfl),
    fun f => decode_encode (.rdb f)⟩
  set read := valueRead (s.memRead (s.windowBase f) (s.movedBytes f)) E
  obtain ⟨regs, -, errors, buf, surroundings⟩ := s.writeResult_only f.rd read
  refine ⟨_, exec_rdb_of_fits (order_of_selectsOrder order) ((s.windowFits_iff f).2 window), regs, errors, buf,
    surroundings, rfl, fun j => ?_⟩
  rw [State.writeTruth_reg, State.getLsbD_writeResult_of_lt (valueRead_memRead_lt s f _ E),
    State.testBit_valueRead_memRead]

end Sys2Proof.Proofs

/-! SUPPORT. What is recorded stays until the host clears it, and has no part in what a command does to the data
(60_exceptions.md R262, R264, R265). -/

namespace Sys2Proof.Machine

open Sys2Proof.Claims

/-- While `ERR = 1` a later error is dropped (60_exceptions.md R262). -/
theorem State.captureError_of_err {s : State} (recorded : s.err = true) (code : ErrorCode) (cmd : CmdWord) :
    s.captureError code cmd = s := if_pos recorded

/-- No command changes what is recorded, whether it raises or not. -/
theorem CommandOutcome.sameErrors_of_err {i : Instr} {s t : State} (h : CommandOutcome i s t)
    (recorded : s.err = true) : SameErrors s t := by
  cases h with
  | illTyped | windowOutside =>
    rw [State.captureError_of_err recorded]
    exact SameErrors.refl s
  | result | truth | stored | loaded => exact SameErrors.refl s

/-- Of all transactions only the clearing write to `STATUS` and the reset take `ERR` from 1 to 0. -/
theorem ServeOutcome.err_falls {s t : State} {txn : HostTxn} (h : ServeOutcome s txn t) (recorded : s.err = true)
    (fallen : t.err = false) : txn = .reset ∨ ∃ d : Word, d.getLsbD 1 = true ∧ txn = .regWrite 9 d := by
  have keeps (same : t.err = s.err) : False := by simp [same, recorded] at fallen
  cases h with
  | reset => exact .inl rfl
  | errorCleared d set => exact .inr ⟨d, set, rfl⟩
  | command d decoded ran =>
    obtain ⟨err, -⟩ := ran.sameErrors_of_err recorded
    exact (keeps err).elim
  | reservedOpcode => simp at fallen
  | regRead | regWrite | errorKept | ignored | bufRead | bufWrite => exact (keeps rfl).elim

/-- The same effect on states that agree on all but the error registers leaves them agreeing on all of that. -/
theorem SameEffect.sameData {s s' t t' : State} (h : SameEffect s s' t t') (regs : SameRegs s s')
    (truth : s'.tFlag = s.tFlag) (buf : SameBuf s s') (surroundings : SameSurroundings s s') :
    SameRegs t t' ∧ t'.tFlag = t.tFlag ∧ SameBuf t t' ∧ SameSurroundings t t' := by
  have buf' : SameBuf t t' := fun a => by
    obtain same | ⟨kept, kept'⟩ := h.bufByte a
    · exact same.symm
    · rw [kept, kept', buf a]
  cases h with
  | raised =>
    exact ⟨by simpa [SameRegs] using regs, by simpa using truth, buf',
      by simpa [SameSurroundings] using surroundings⟩
  | result rd n => exact ⟨regs.writeResult rd n, truth, buf', surroundings⟩
  | truth | stored => exact ⟨regs, rfl, buf', surroundings⟩
  | loaded rd n => exact ⟨regs.writeResult rd n, rfl, buf', surroundings⟩

end Sys2Proof.Machine

/-! CERTIFICATE. The statements about error capture and the return from it (60_exceptions.md). -/

namespace Sys2Proof.Proofs

open Sys2Proof.Machine Sys2Proof.Claims

/-- Settles O11: bit 1 of the datum decides between `State.clearError` and nothing, and `ServeOutcome.err_falls` names
the transactions that take `ERR` from 1 to 0. -/
theorem statusWriteClearsError : Obligations.StatusWriteClearsError := by
  refine ⟨fun s d rest hp => ?_, fun s t ht recorded fallen => ?_⟩
  · rw [step_of_pending_cons hp, serve, hostRegWrite_status]
    split
    next set =>
      obtain ⟨regs, truth, buf, surroundings, cleared⟩ := (afterTaking s rest).clearError_only
      exact ⟨_, rfl, regs, truth, buf, surroundings, fun _ => cleared,
        fun clear => nomatch set.symm.trans clear⟩
    next clear =>
      exact ⟨_, rfl, fun _ => rfl, rfl, fun _ => rfl, SameSurroundings.refl _, fun set => absurd set clear,
        fun _ => rfl⟩
  · obtain ⟨-, rfl⟩ | ⟨txn, rest, hp, served⟩ := step_outcome ht
    · simp [recorded] at fallen
    · obtain rfl | ⟨d, set, rfl⟩ := served.err_falls recorded fallen
      · exact ⟨rest, .inl hp⟩
      · exact ⟨rest, .inr ⟨d, set, hp⟩⟩

/-- Settles O18: the error registers are no operand, so by `exec_sameEffect` a command has one effect whatever is
recorded; a raising one is an error capture, which does nothing while `ERR = 1`. -/
theorem errorDoesNotBlock : Obligations.ErrorDoesNotBlock := by
  refine ⟨fun i s t e code cmd ht => ?_, fun i s recorded raises => ?_, fun cmd s recorded reserved => ?_⟩
  · have agree : SameOperands i s { s with err := e, ecode := code, ecmd := cmd } :=
      ⟨fun _ => rfl, rfl, fun _ _ => rfl, fun _ _ _ => rfl⟩
    obtain ⟨t', ht', same⟩ := exec_sameEffect agree ht
    obtain ⟨regs, truth, buf, surroundings⟩ :=
      same.sameData (fun _ => rfl) rfl (fun _ => rfl) ⟨rfl, rfl, rfl, rfl, rfl⟩
    refine ⟨t', ht', regs, truth, buf, surroundings, fun recorded => ?_⟩
    obtain ⟨err, ecode, ecmd⟩ := (CommandOutcome.of_exec ht').sameErrors_of_err recorded
    exact ⟨err.trans recorded, ecode, ecmd⟩
  · rw [exec_of_raises raises, State.captureError_of_err recorded]
  · obtain ⟨-, refused⟩ | ⟨known, -⟩ := decode_cases cmd
    · rw [issueCommand_of_error refused, State.captureError_of_err recorded]
    · exact absurd reserved known

end Sys2Proof.Proofs

/-! CERTIFICATE. The statement about the unit with nothing to serve (00_scope.md section 4). -/

namespace Sys2Proof.Proofs

open Sys2Proof.Machine Sys2Proof.Claims

/-- Settles O7: `step_of_pending_nil` is the idle case of the step, the model's choice (log entry 1), the same from
every state. -/
theorem idleUnitChangesNothing : Obligations.IdleUnitChangesNothing := fun _ idle => step_of_pending_nil idle

end Sys2Proof.Proofs
